-- ==== Sys2Proof/Word.lean ====
section
/-! DEFINITION. The widths of the Half-Float Codec's patterns and the two width changes every rule uses
(00_scope.md R10 `W32`, `W16`, R15; 30_encoding.md R72). Bit 0 is the least significant bit of every vector
(20_memory.md R41, 92_eei_decisions.md D3). -/

namespace Sys2Proof

/-- A 32-bit single-precision pattern, or the 32-bit result word `res`. -/
abbrev U32 := BitVec 32

/-- A 16-bit half-precision pattern. -/
abbrev U16 := BitVec 16

/-- One bit: a predicate's result, 1 for true (92_eei_decisions.md D19). -/
abbrev U1 := BitVec 1

/-- The operation number of a command word (30_encoding.md R72). -/
abbrev OpNum := BitVec 3

/-- A command word `(op[34:32], arg[31:0])`, 35 bits (30_encoding.md R72). -/
abbrev CmdWord := BitVec 35

/-- `zext_32(v)` of 00_scope.md R15: zeros enter at the top. -/
abbrev zext32 {n : Nat} (v : BitVec n) : U32 := v.setWidth 32

/-- `trunc_16(v)` of 00_scope.md R15: the low 16 bits. -/
abbrev trunc16 {n : Nat} (v : BitVec n) : U16 := v.setWidth 16

end Sys2Proof
end

