-- ==== Sys2Proof/Config.lean ====
section
/-! DEFINITION. The parameters of 00_scope.md R10 and R11 and the named constants of 30_encoding.md R68.
They are fixed at elaboration (00_scope.md R13) and nothing reads them at run time.
No implementation-defined value and no free value exists (93_implementation_defined.md section 1). -/

namespace Sys2Proof.Config

/-- `F_EXP_BITS`, `F_SIG_BITS`, `F_BIAS` (R10, R60). -/
abbrev fExpBits : Nat := 8
abbrev fSigBits : Nat := 23
abbrev fBias : Nat := 127

/-- `H_EXP_BITS`, `H_SIG_BITS`, `H_BIAS` (R10, R61). -/
abbrev hExpBits : Nat := 5
abbrev hSigBits : Nat := 10
abbrev hBias : Nat := 15

/-- `SIG_SHIFT`: the right shift that drops the low significand bits. -/
abbrev sigShift : Nat := 13

/-- `ROUND_BIAS`: added before the shift. -/
abbrev roundBias : U32 := 0x00001000#32

/-- In-place masks of the single-precision fields (R60); `fExpMask` is also the all-ones exponent `F_EXP_MASK`. -/
abbrev fSignMask : U32 := 0x80000000#32
abbrev fExpMask : U32 := 0x7f800000#32
abbrev fSigMask : U32 := 0x007fffff#32

/-- The implicit leading one of a 24-bit significand (00_scope.md section 7, 40_encode.md R108). -/
abbrev fImplicitOne : U32 := 0x00800000#32

/-- `OVF_EXP`: exponent field 143 in place. -/
abbrev ovfExp : U32 := 0x47800000#32

/-- `SUB_EXP`: exponent field 112 in place. -/
abbrev subExp : U32 := 0x38000000#32

/-- `ZERO_EXP`: exponent field 102 in place. -/
abbrev zeroExp : U32 := 0x33000000#32

/-- `SUB_SHIFT_BASE`: the subnormal path shifts right by `113 - e`. -/
abbrev subShiftBase : Nat := 113

/-- `REBIAS_DEC`: `(127 - 15) << 10` (90_conflicts.md C3). -/
abbrev rebiasDec : U32 := 0x0001c000#32

/-- In-place masks of the half-precision fields (R61); `hExpMask` is also the pattern of +infinity `H_EXP_MASK`. -/
abbrev hSignMask : U16 := 0x8000#16
abbrev hExpMask : U16 := 0x7c00#16
abbrev hSigMask : U16 := 0x03ff#16
abbrev hMagMask : U16 := 0x7fff#16

/-- The eight named constants (R68; names by 92_eei_decisions.md D18). -/
abbrev hPZero : U16 := 0x0000#16
abbrev hNZero : U16 := 0x8000#16
abbrev hOne : U16 := 0x3c00#16
abbrev hNegOne : U16 := 0xbc00#16
abbrev hPInf : U16 := 0x7c00#16
abbrev hNInf : U16 := 0xfc00#16
abbrev hNaN : U16 := 0x7e00#16
abbrev hMax : U16 := 0x7bff#16

/-- `TIE_RULE` (R11): what `encode` does when the discarded bits are exactly half a unit of the last kept place. -/
inductive TieRule where
  /-- the rounding bias is always added: a tie goes to the larger magnitude -/
  | bias
  /-- a tie goes to the neighbour whose last kept bit is 0 (40_encode.md R113) -/
  | even
deriving DecidableEq, Repr

/-- "This hardware has `TIE_RULE = bias`" (R11, 92_eei_decisions.md D8). UNVERIFIED, unsafe: see log entry 4. -/
abbrev tieRule : TieRule := .bias

end Sys2Proof.Config
end

