-- ==== Sys2Proof/Syntax.lean ====
section
/-! DEFINITION. The abstract form of operations and command words (30_encoding.md part B). -/

namespace Sys2Proof

/-- One constructor per row of `opcode_table.json`, each with the whole operand at its own width (R70, R74).
`toHalf` and `toFloat` are the pseudo-operations of R81: lines of assembly with the command word of `encode` and `decode`. -/
inductive Instr where
  /-- `ENCODE f` (R116) -/
  | encode (f : U32)
  /-- `TOHALF v` (R120), `v` the 32 bits of the single-precision value -/
  | toHalf (f : U32)
  /-- `DECODE h` (R147) -/
  | decode (h : U16)
  /-- `TOFLOAT h` (R151) -/
  | toFloat (h : U16)
  /-- `ISNAN h` (R160) -/
  | isNaN (h : U16)
  /-- `ISINF h` (R161) -/
  | isInf (h : U16)
  /-- `ISFINITE h` (R162) -/
  | isFinite (h : U16)
deriving DecidableEq, Repr

/-- The two fields of the one format `CMD` (R72). -/
structure Command where
  op  : OpNum
  arg : U32
deriving DecidableEq, Repr

/-- Why a command word is reserved (R76). -/
inductive DecodeError where
  /-- `op` is 5, 6 or 7 -/
  | opReserved
  /-- `op` is 1, 2, 3 or 4 and `arg[31:16]` is not zero -/
  | operandHighBitsSet
deriving DecidableEq, Repr

/-- A row of the operation table (R73): a word `c` spells the row's operation when `c & mask == pattern`. -/
structure OpRow where
  mnemonic : String
  pattern  : CmdWord
  mask     : CmdWord
deriving DecidableEq, Repr

end Sys2Proof
end

