-- ==== Sys2Proof/WellFormed.lean ====
section
/-! DEFINITION. What well-formed means for a command and for an instruction (30_encoding.md R76, R81).
Operand widths are carried by the types of `Instr`, so no operand can be too wide there. -/

namespace Sys2Proof

/-- `op` numbers one of the five operations of R73; 5, 6 and 7 are reserved. -/
def Command.opAssigned (c : Command) : Bool := decide (c.op.toNat ≤ 4)

/-- The operand fits the operation: `ENCODE` takes all 32 bits, the others need `arg[31:16]` to be zero (R72, R76). -/
def Command.operandFits (c : Command) : Bool := c.op == 0#3 || c.arg.extractLsb' 16 16 == 0#16

/-- A command is well formed when it is not reserved (R76). -/
def Command.wf (c : Command) : Bool := c.opAssigned && c.operandFits

/-- A decoded instruction is one of the five primary operations; the two pseudo-operations have no command word
of their own, and a disassembler never prints them (R70, R81). -/
def Instr.wf : Instr → Bool
  | .encode _ => true
  | .toHalf _ => false
  | .decode _ => true
  | .toFloat _ => false
  | .isNaN _ => true
  | .isInf _ => true
  | .isFinite _ => true

end Sys2Proof
end

