-- ==== Sys2Proof/Decode.lean ====
section
/-! DEFINITION. From command words to instructions and back (30_encoding.md R72 to R78, R81). The decoder is total on
every 35-bit word and rejects a reserved word by name. Everything here is the spec's own packaging of the seven
operations (92_eei_decisions.md D4, D5, D6, D7). -/

namespace Sys2Proof

/-- The fields of a command word: `op = c[34:32]`, `arg = c[31:0]` (R72). -/
def CmdWord.command (c : CmdWord) : Command :=
  { op := c.extractLsb' 32 3, arg := c.extractLsb' 0 32 }

/-- The word `(op, arg)`, `op` in the high bits (R72). -/
def Command.word (c : Command) : CmdWord := c.op ++ c.arg

/-- The 16-bit operand `arg[15:0]` (R74). -/
def Command.half (c : Command) : U16 := c.arg.extractLsb' 0 16

/-- The instruction a command spells, or why it spells none (R73, R74, R76). -/
def decodeCommand (c : Command) : Except DecodeError Instr :=
  if c.op = 0#3 then .ok (.encode c.arg)
  else if c.opAssigned = false then .error .opReserved
  else if c.operandFits = false then .error .operandHighBitsSet
  else if c.op = 1#3 then .ok (.decode c.half)
  else if c.op = 2#3 then .ok (.isNaN c.half)
  else if c.op = 3#3 then .ok (.isInf c.half)
  else .ok (.isFinite c.half)

/-- The decoder. -/
def decodeWord (c : CmdWord) : Except DecodeError Instr := decodeCommand (CmdWord.command c)

/-- The fields of an instruction: operation number and `zext_32(operand)` (R73, R80, R81). -/
def Instr.command : Instr → Command
  | .encode f => { op := 0#3, arg := f }
  | .toHalf f => { op := 0#3, arg := f }
  | .decode h => { op := 1#3, arg := zext32 h }
  | .toFloat h => { op := 1#3, arg := zext32 h }
  | .isNaN h => { op := 2#3, arg := zext32 h }
  | .isInf h => { op := 3#3, arg := zext32 h }
  | .isFinite h => { op := 4#3, arg := zext32 h }

/-- The encoder: the command word an instruction assembles to. -/
def encodeInstr (i : Instr) : CmdWord := i.command.word

/-- The primary operation with the same command word: the identity but on the two pseudo-operations (R81). -/
def Instr.canonical : Instr → Instr
  | .encode f => .encode f
  | .toHalf f => .encode f
  | .decode h => .decode h
  | .toFloat h => .decode h
  | .isNaN h => .isNaN h
  | .isInf h => .isInf h
  | .isFinite h => .isFinite h

/-- The mnemonic of R70, as `opcode_table.json` spells it. -/
def Instr.mnemonic : Instr → String
  | .encode _ => "ENCODE"
  | .toHalf _ => "TOHALF"
  | .decode _ => "DECODE"
  | .toFloat _ => "TOFLOAT"
  | .isNaN _ => "ISNAN"
  | .isInf _ => "ISINF"
  | .isFinite _ => "ISFINITE"

/-- The rows of R73, aliases under the operation they stand for. -/
def opTable : List OpRow :=
  [ { mnemonic := "ENCODE",   pattern := 0x000000000#35, mask := 0x700000000#35 },
    { mnemonic := "DECODE",   pattern := 0x100000000#35, mask := 0x7ffff0000#35 },
    { mnemonic := "ISNAN",    pattern := 0x200000000#35, mask := 0x7ffff0000#35 },
    { mnemonic := "ISINF",    pattern := 0x300000000#35, mask := 0x7ffff0000#35 },
    { mnemonic := "ISFINITE", pattern := 0x400000000#35, mask := 0x7ffff0000#35 } ]

/-- A command word spells the row's operation (R73). -/
def OpRow.spells (r : OpRow) (c : CmdWord) : Bool := c &&& r.mask == r.pattern

/-- `nbits` bits of table numbering as a command word: the table's bit 0 is the word's bit 0, and a command word
has no bit above 34 (log entry 5). -/
def tableWord (nbits w : Nat) : Option CmdWord :=
  if w % 2 ^ nbits < 2 ^ 35 then some (BitVec.ofNat 35 (w % 2 ^ nbits)) else none

/-- What the decoder reads from a word numbered as the opcode table numbers it. -/
def decodeTableWord (nbits w : Nat) : Option Instr :=
  match tableWord nbits w with
  | none => none
  | some c => (decodeWord c).toOption

end Sys2Proof
end

