-- ==== Sys2Proof/Machine/State.lean ====
section
/-! DEFINITION. The machine state and the ways a step can stop.

The block itself holds NO state (10_state.md R20 to R28): no register, no program counter, no flag, no memory, no hidden
state. What a step touches is the operand presented and the result read (00_scope.md R13), and both belong to the driver:
in the command-word view it holds a finite list of command words, steps through it, and its observation is the list of
results (10_state.md R22, 30_encoding.md R82, 70_reset_and_hazards.md R259). `State` holds these two lists and nothing else
(DESIGN CHOICE, safe: log entry 1). No memory component exists, so no canonical form of one (20_memory.md R40). -/

namespace Sys2Proof.Machine

/-- The driver's side of the ports `cmd` and `res` (10_state.md R31); the block's own state is empty. -/
structure State where
  /-- the command words not yet presented on `cmd`, the next one first (R22, R82) -/
  pending : List CmdWord
  /-- the results read from `res`, oldest first (R82, R259) -/
  results : List U32
deriving DecidableEq, Repr

/-- No operation faults: "the fault type is empty" (60_exceptions.md R220, R232). No constructor, so nothing raises one;
exact, neither safe nor unsafe (R233). -/
inductive Fault : Type
deriving DecidableEq, Repr

/-- Why the machine gives a command word no meaning. -/
inductive Refusal where
  /-- An arm of `exec` without a meaning: none in this model, so never raised. Safe. -/
  | notModelled (mnemonic : String)
  /-- Raised by `step` when the word presented is reserved: it spells no operation, and the model refuses it
  (30_encoding.md R76, 60_exceptions.md R222). Safe: nothing is proved of the run. -/
  | reservedWord (why : DecodeError)
deriving DecidableEq, Repr

/-- Before anything is presented. There is no reset input and no reset value (10_state.md R32, 70_reset_and_hazards.md R250);
the driver has nothing to present and has read nothing (DESIGN CHOICE, unsafe: log entry 3). -/
def State.reset : State := { pending := [], results := [] }

end Sys2Proof.Machine
end

