-- ==== Sys2Proof/Machine/Flags.lean ====
section
/-! DEFINITION. There are no status flags and no condition codes: no invalid, overflow, underflow or inexact flag, sticky or
not (10_state.md R23, 60_exceptions.md R221, 92_eei_decisions.md D11), so no flag computation exists. What the spec does give
is the one-bit result of a predicate, 1 for true (30_encoding.md R75, 42_classify.md). -/

namespace Sys2Proof.Machine

/-- A truth value as one bit, 1 for true (92_eei_decisions.md D19). -/
def predicateBit (b : Bool) : U1 := BitVec.ofBool b

end Sys2Proof.Machine
end

