-- ==== Sys2Proof/Machine/Operands.lean ====
section
/-! DEFINITION. The one operand form and the one result form (30_encoding.md R74, R75). There are no immediates, no register
specifiers, no addressing modes and no extension of an operand: the operand of an instruction is the whole pattern the
decoder took from `arg`. What is left is how each kind of result becomes the 32-bit word `res`. -/

namespace Sys2Proof.Machine

/-- `res = zext_32(encode(f))` (R75, 92_eei_decisions.md D21). -/
def resOfHalf (h : U16) : U32 := zext32 h

/-- `res = decode(h)`: all 32 bits (R75). -/
def resOfSingle (f : U32) : U32 := f

/-- `res = zext_32(p)`, `p` the predicate's one bit (R75, D19, D21). -/
def resOfBit (p : U1) : U32 := zext32 p

end Sys2Proof.Machine
end

