-- ==== Sys2Proof/Machine/Ops.lean ====
section
/-! DEFINITION. The operations over `State` that `step` and the meanings share. No register, no memory and no exception exists,
so there is none to read, write, take or return from (10_state.md R21, 20_memory.md R40, 60_exceptions.md R220, R225, R231):
an operation's whole effect is that its result is read from `res`. -/

namespace Sys2Proof.Machine

/-- The driver reads the result `r` (30_encoding.md R82). -/
def State.emit (s : State) (r : U32) : State := { s with results := s.results ++ [r] }

/-- The driver puts `c` before the words it still has to present (30_encoding.md R82). -/
def State.present (s : State) (c : CmdWord) : State := { s with pending := c :: s.pending }

/-- The word the driver presents next, and the state in which it has been presented; none when the list is exhausted
(30_encoding.md R82, 10_state.md R22). -/
def State.nextWord (s : State) : Option (CmdWord × State) :=
  match s.pending with
  | [] => none
  | c :: rest => some (c, { s with pending := rest })

/-- The end of every operation: a result, never a fault (60_exceptions.md R220, R232). -/
def complete (s : State) (r : U32) : Host.Outcome State Fault Refusal := .next (s.emit r)

/-- The state after a step with no word left to present: "the block never stops, halts or exits" and the observation of the
run stays as it is (70_reset_and_hazards.md R259). DESIGN CHOICE, safe: log entry 2. -/
def idle (s : State) : Host.Outcome State Fault Refusal := .next s

end Sys2Proof.Machine
end

