-- ==== Sys2Proof/Machine/Classify.lean ====
section
/-! DEFINITION. The unit `fp16_classifier`: `ISNAN`, `ISINF` and `ISFINITE` (42_classify.md R160 to R165). -/

namespace Sys2Proof.Machine

/-- "exponent field is all ones AND significand field nonzero" (R160). -/
def Codec.isNaN (h : U16) : U1 :=
  predicateBit ((h &&& Config.hExpMask) == Config.hExpMask && (h &&& Config.hSigMask) != 0#16)

/-- "all bits except the sign bit match the pure infinity pattern" (R161). -/
def Codec.isInf (h : U16) : U1 := predicateBit ((h &&& Config.hMagMask) == Config.hExpMask)

/-- "exponent field is not all ones" (R162). -/
def Codec.isFinite (h : U16) : U1 := predicateBit ((h &&& Config.hExpMask) != Config.hExpMask)

/-- `ISNAN h` (R160). -/
def execIsNaN (h : U16) (s : State) : Host.Outcome State Fault Refusal := complete s (resOfBit (Codec.isNaN h))

/-- `ISINF h` (R161). -/
def execIsInf (h : U16) (s : State) : Host.Outcome State Fault Refusal := complete s (resOfBit (Codec.isInf h))

/-- `ISFINITE h` (R162). -/
def execIsFinite (h : U16) (s : State) : Host.Outcome State Fault Refusal := complete s (resOfBit (Codec.isFinite h))

end Sys2Proof.Machine
end

