-- ==== Sys2Proof/Machine/Convert.lean ====
section
/-! DEFINITION. The unit `fp32_to_fp16_converter`: `ENCODE` and `TOHALF` (40_encode.md R100 to R121). -/

namespace Sys2Proof.Machine

/-- `h_sgn`: the sign in the half's sign position (R101). -/
def Codec.hSgn (f : U32) : U16 := trunc16 ((f &&& Config.fSignMask) >>> 16)

/-- `f_exp`: the exponent field in place (R101). -/
def Codec.fExp (f : U32) : U32 := f &&& Config.fExpMask

/-- `f_sig`: the 23-bit significand field (R101). -/
def Codec.fSig (f : U32) : U32 := f &&& Config.fSigMask

/-- `((S >> a) + 0x1000) >> 13`: the bias is always added (R108, R109, R111). -/
def Codec.roundByBias (S : U32) (a : Nat) : U32 := ((S >>> a) + Config.roundBias) >>> Config.sigShift

/-- Round to nearest, ties to even, on the exact remainder of the `k = a + 13` discarded bits (R113).
PRESUMED: the spec supplies the definition from general knowledge (93_implementation_defined.md G2); not this hardware's
behaviour; log entry 10. -/
def Codec.roundByEven (S : U32) (a : Nat) : U32 :=
  let k := a + Config.sigShift
  let q := S >>> k
  let r := S &&& ((1#32 <<< k) - 1#32)
  let half := 1#32 <<< (k - 1)
  if r > half ∨ (r = half ∧ q.getLsbD 0 = true) then q + 1#32 else q

/-- The rounding step under either tie rule (R111, R113): `S` loses `a + 13` bits. -/
def Codec.roundSig (t : Config.TieRule) (S : U32) (a : Nat) : U16 :=
  match t with
  | .bias => trunc16 (Codec.roundByBias S a)
  | .even => trunc16 (Codec.roundByEven S a)

/-- The magnitude of a NaN result: top ten payload bits, with the guard that keeps it from the infinity pattern (R104). -/
def Codec.nanMagnitude (fSig : U32) : U16 :=
  let ret := Config.hExpMask + trunc16 (fSig >>> Config.sigShift)
  if ret = Config.hExpMask then 0x7c01#16 else ret

/-- The significand part of the subnormal path, the implicit leading one restored (R108). -/
def Codec.subnormalSig (t : Config.TieRule) (f : U32) : U16 :=
  let e := Codec.fExp f >>> Config.fSigBits
  Codec.roundSig t (Config.fImplicitOne + Codec.fSig f) (Config.subShiftBase - e.toNat)

/-- The exponent part of the regular case (R109). -/
def Codec.regularExp (f : U32) : U16 := trunc16 ((Codec.fExp f - Config.subExp) >>> Config.sigShift)

/-- `encode` under a tie rule: the listing of R116, with the rounding step of R113 for `even`. -/
def Codec.encodeBy (t : Config.TieRule) (f : U32) : U16 :=
  if Codec.fExp f ≥ Config.ovfExp then
    if Codec.fExp f = Config.fExpMask then
      if Codec.fSig f ≠ 0#32 then Codec.hSgn f + Codec.nanMagnitude (Codec.fSig f)
      else Codec.hSgn f + Config.hExpMask
    else Codec.hSgn f + Config.hExpMask
  else if Codec.fExp f ≤ Config.subExp then
    if Codec.fExp f < Config.zeroExp then Codec.hSgn f
    else Codec.hSgn f + Codec.subnormalSig t f
  else Codec.hSgn f + Codec.regularExp f + Codec.roundSig t (Codec.fSig f) 0

/-- `encode` of this hardware (R116, `TIE_RULE = bias`). -/
def Codec.encode (f : U32) : U16 := Codec.encodeBy Config.tieRule f

/-- `toHalf`: `encode` of the value's own 32 bits; the reinterpretation is no logic (R120). -/
def Codec.toHalf (v : U32) : U16 := Codec.encode v

/-- `ENCODE f` (R116). -/
def execEncode (f : U32) (s : State) : Host.Outcome State Fault Refusal := complete s (resOfHalf (Codec.encode f))

/-- `TOHALF v` (R120). -/
def execToHalf (v : U32) (s : State) : Host.Outcome State Fault Refusal := complete s (resOfHalf (Codec.toHalf v))

end Sys2Proof.Machine
end

