-- ==== Sys2Proof/Machine/Expand.lean ====
section
/-! DEFINITION. The unit `fp16_to_fp32_expander`: `DECODE` and `TOFLOAT` (41_decode.md R140 to R152). -/

namespace Sys2Proof.Machine

/-- `h_exp`: the exponent field in place (R141). -/
def Codec.hExp (h : U16) : U16 := h &&& Config.hExpMask

/-- `h_sig`: the 10-bit significand field (R141). -/
def Codec.hSig (h : U16) : U16 := h &&& Config.hSigMask

/-- `f_sgn`: the sign in 32-bit position (R141). -/
def Codec.fSgn (h : U16) : U32 := zext32 (h &&& Config.hSignMask) <<< 16

/-- The index of the most significant set bit at or below index `n`; 0 when there is none. -/
def Codec.msbFrom : Nat → U16 → Nat
  | 0, _ => 0
  | n + 1, v => if v.getLsbD (n + 1) then n + 1 else Codec.msbFrom n v

/-- `msb(v)` for `v != 0` (00_scope.md R15). -/
def Codec.msb (v : U16) : Nat := Codec.msbFrom 15 v

/-- Exponent and significand of a subnormal's result, `f_exp + f_sig` (R143, closed form). -/
def Codec.subnormalMagnitude (sig : U16) : U32 :=
  let p := Codec.msb sig
  let m := sig <<< (10 - p)
  (BitVec.ofNat 32 (103 + p) <<< 23) + (zext32 (m &&& Config.hSigMask) <<< 13)

/-- The loop of R143: shift until bit 10 is set, counting every shift but the first one, made before the loop.
The fuel 9 is the most it can need (R258). -/
def Codec.normalizeLoop : Nat → U16 → Nat → U16 × Nat
  | 0, m, count => (m, count)
  | fuel + 1, m, count =>
    if m &&& 0x0400#16 = 0#16 then Codec.normalizeLoop fuel (m <<< 1) (count + 1) else (m, count)

/-- Exponent and significand of a subnormal's result as the document tells it, by the loop (R143). -/
def Codec.subnormalMagnitudeByLoop (sig : U16) : U32 :=
  let r := Codec.normalizeLoop 9 (sig <<< 1) 0
  (BitVec.ofNat 32 (127 - 15 - r.2) <<< 23) + (zext32 (r.1 &&& Config.hSigMask) <<< 13)

/-- `decode`: the listing of R147. -/
def Codec.decode (h : U16) : U32 :=
  if Codec.hExp h = 0#16 then
    if Codec.hSig h = 0#16 then Codec.fSgn h
    else Codec.fSgn h + Codec.subnormalMagnitude (Codec.hSig h)
  else if Codec.hExp h = Config.hExpMask then
    Codec.fSgn h + Config.fExpMask + (zext32 (Codec.hSig h) <<< 13)
  else Codec.fSgn h + ((zext32 (h &&& Config.hMagMask) + Config.rebiasDec) <<< 13)

/-- `toFloat`: `decode`, its 32 bits read as a single-precision value; the reinterpretation is no logic (R151). -/
def Codec.toFloat (h : U16) : U32 := Codec.decode h

/-- `DECODE h` (R147). -/
def execDecode (h : U16) (s : State) : Host.Outcome State Fault Refusal := complete s (resOfSingle (Codec.decode h))

/-- `TOFLOAT h` (R151). -/
def execToFloat (h : U16) (s : State) : Host.Outcome State Fault Refusal := complete s (resOfSingle (Codec.toFloat h))

end Sys2Proof.Machine
end

