-- ==== Sys2Proof/Machine/Dispatch.lean ====
section
/-! DEFINITION. Which meaning each instruction has: one arm per constructor of `Instr` (30_encoding.md R70). -/

namespace Sys2Proof.Machine

def exec (i : Instr) (s : State) : Host.Outcome State Fault Refusal :=
  match i with
  | .encode f => Sys2Proof.Machine.execEncode f s
  | .toHalf f => Sys2Proof.Machine.execToHalf f s
  | .decode h => Sys2Proof.Machine.execDecode h s
  | .toFloat h => Sys2Proof.Machine.execToFloat h s
  | .isNaN h => Sys2Proof.Machine.execIsNaN h s
  | .isInf h => Sys2Proof.Machine.execIsInf h s
  | .isFinite h => Sys2Proof.Machine.execIsFinite h s

end Sys2Proof.Machine
end

