-- ==== Sys2Proof/Machine/Step.lean ====
section
/-! DEFINITION. One step: the driver presents the next command word and reads its result (30_encoding.md R82,
00_scope.md R14). -/

namespace Sys2Proof.Machine

/-- Present the next word, decode it and run it; a reserved word is refused (R76), and with no word left the step changes
nothing (log entry 2). -/
def step (s : State) : Host.Outcome State Fault Refusal :=
  match s.nextWord with
  | none => idle s
  | some (c, s') =>
    match decodeWord c with
    | .error why => .refused (.reservedWord why)
    | .ok i => exec i s'

/-- `s` with the table's word as the next one the driver presents (log entries 3 and 5); bits above a command word's 35 are
not part of one, and `decodeTableWord` reads no instruction from such a word. -/
def State.withFetchWord (s : State) (nbits w : Nat) : State := s.present (BitVec.ofNat 35 (w % 2 ^ nbits))

end Sys2Proof.Machine
end

