-- ==== Sys2Proof/Machine/Assembly.lean ====
section
/-! DEFINITION. The assembly syntax of 30_encoding.md R80 and R81 (92_eei_decisions.md D20): one operation per line,
`<MNEMONIC> <operand>   ; comment`, the operand in hexadecimal with `0x`, 8 digits for a 32-bit operand and 4 for a 16-bit one.
A line is its list of characters. Blanks and the letter case of digits: log entry 8. -/

namespace Sys2Proof.Machine

/-- The digit of a 4-bit value, lower case. -/
def Asm.hexDigit (v : Nat) : Char := Char.ofNat (if v < 10 then 48 + v else 87 + v)

/-- The value of a hexadecimal digit, either case. -/
def Asm.hexValue (c : Char) : Option Nat :=
  let n := c.toNat
  if 48 ≤ n ∧ n ≤ 57 then some (n - 48)
  else if 97 ≤ n ∧ n ≤ 102 then some (n - 87)
  else if 65 ≤ n ∧ n ≤ 70 then some (n - 55)
  else none

/-- The `k` low digits of `v`, most significant first. -/
def Asm.hexDigits : Nat → Nat → List Char
  | 0, _ => []
  | k + 1, v => Asm.hexDigits k (v / 16) ++ [Asm.hexDigit (v % 16)]

/-- The number that the digits spell after `acc`. -/
def Asm.readHex : Nat → List Char → Option Nat
  | acc, [] => some acc
  | acc, c :: rest =>
    match Asm.hexValue c with
    | none => none
    | some d => Asm.readHex (16 * acc + d) rest

/-- `0x` and exactly `k` digits. -/
def Asm.readOperand (k : Nat) (cs : List Char) : Option Nat :=
  match cs with
  | '0' :: 'x' :: digits => if digits.length = k then Asm.readHex 0 digits else none
  | _ => none

/-- The instruction a mnemonic and an operand text spell; nothing else is a mnemonic (R80). -/
def Asm.readInstr (mnemonic operand : List Char) : Option Instr :=
  if mnemonic = "ENCODE".toList then (Asm.readOperand 8 operand).map (fun n => .encode (BitVec.ofNat 32 n))
  else if mnemonic = "TOHALF".toList then (Asm.readOperand 8 operand).map (fun n => .toHalf (BitVec.ofNat 32 n))
  else if mnemonic = "DECODE".toList then (Asm.readOperand 4 operand).map (fun n => .decode (BitVec.ofNat 16 n))
  else if mnemonic = "TOFLOAT".toList then (Asm.readOperand 4 operand).map (fun n => .toFloat (BitVec.ofNat 16 n))
  else if mnemonic = "ISNAN".toList then (Asm.readOperand 4 operand).map (fun n => .isNaN (BitVec.ofNat 16 n))
  else if mnemonic = "ISINF".toList then (Asm.readOperand 4 operand).map (fun n => .isInf (BitVec.ofNat 16 n))
  else if mnemonic = "ISFINITE".toList then (Asm.readOperand 4 operand).map (fun n => .isFinite (BitVec.ofNat 16 n))
  else none

/-- A character that is not a blank. -/
def Asm.notBlank (c : Char) : Bool := c != ' '

/-- The line without its comment, and without the blanks before the comment. -/
def Asm.code (line : List Char) : List Char :=
  ((line.takeWhile (fun c => c != ';')).reverse.dropWhile (fun c => c == ' ')).reverse

/-- The instruction of a line: mnemonic, blanks, operand (R80). -/
def Asm.readLine (line : List Char) : Option Instr :=
  let body := Asm.code line
  Asm.readInstr (body.takeWhile Asm.notBlank) ((body.dropWhile Asm.notBlank).dropWhile (fun c => c == ' '))

/-- The assembler: "maps a line to the command word `(op, zext_32(operand))`" (R80). -/
def Asm.assemble (line : List Char) : Option CmdWord := (Asm.readLine line).map encodeInstr

/-- The operand text of an instruction. -/
def Asm.operandText : Instr → List Char
  | .encode f => '0' :: 'x' :: Asm.hexDigits 8 f.toNat
  | .toHalf f => '0' :: 'x' :: Asm.hexDigits 8 f.toNat
  | .decode h => '0' :: 'x' :: Asm.hexDigits 4 h.toNat
  | .toFloat h => '0' :: 'x' :: Asm.hexDigits 4 h.toNat
  | .isNaN h => '0' :: 'x' :: Asm.hexDigits 4 h.toNat
  | .isInf h => '0' :: 'x' :: Asm.hexDigits 4 h.toNat
  | .isFinite h => '0' :: 'x' :: Asm.hexDigits 4 h.toNat

/-- The line of an instruction. -/
def Asm.printLine (i : Instr) : List Char := i.mnemonic.toList ++ ' ' :: Asm.operandText i

/-- The disassembler: the line of the decoded instruction, so `ENCODE` and `DECODE` and never an alias (R81). -/
def Asm.disassemble (c : CmdWord) : Option (List Char) := (decodeWord c).toOption.map Asm.printLine

end Sys2Proof.Machine
end

