-- ==== Sys2Proof/Machine/Formats.lean ====
section
/-! DEFINITION. What the two patterns mean: fields, classes and values (30_encoding.md part A, R60 to R66).
No operation is defined through this file; the operations are defined on bits (R64). It gives the words in which
properties of the operations are stated. -/

namespace Sys2Proof.Machine

/-- `f[31]`, `f[30:23]`, `f[22:0]` as numbers (R60). -/
def Single.sign (f : U32) : Nat := (f.extractLsb' 31 1).toNat
def Single.exp (f : U32) : Nat := (f.extractLsb' 23 8).toNat
def Single.sig (f : U32) : Nat := (f.extractLsb' 0 23).toNat

/-- The magnitude pattern `f & 0x7fffffff` as a number (45_properties.md R186). -/
def Single.mag (f : U32) : Nat := (f.extractLsb' 0 31).toNat

/-- `h[15]`, `h[14:10]`, `h[9:0]` as numbers (R61). -/
def Half.sign (h : U16) : Nat := (h.extractLsb' 15 1).toNat
def Half.exp (h : U16) : Nat := (h.extractLsb' 10 5).toNat
def Half.sig (h : U16) : Nat := (h.extractLsb' 0 10).toNat

/-- The magnitude pattern `h & 0x7fff` as a number. -/
def Half.mag (h : U16) : Nat := (h.extractLsb' 0 15).toNat

/-- The classes of a pattern (R62, R63). -/
inductive FpClass where
  | zero
  | subnormal
  | normal
  | infinity
  | nan
deriving DecidableEq, Repr

/-- The class by exponent field `e`, significand field `m` and the all-ones exponent `top`. -/
def classOf (top e m : Nat) : FpClass :=
  if e = 0 then (if m = 0 then .zero else .subnormal)
  else if e = top then (if m = 0 then .infinity else .nan)
  else .normal

/-- The class of a 32-bit pattern (R62); the sign plays no part. -/
def Single.fpClass (f : U32) : FpClass := classOf 255 (Single.exp f) (Single.sig f)

/-- The class of a 16-bit pattern (R63). -/
def Half.fpClass (h : U16) : FpClass := classOf 31 (Half.exp h) (Half.sig h)

/-- Zero, subnormal or normal (R63). -/
def FpClass.finite : FpClass → Bool
  | .zero => true
  | .subnormal => true
  | .normal => true
  | .infinity => false
  | .nan => false

/-- The value formula of R64 for `p` significand bits and bias `b`, exponent not all ones.
PRESUMED: the spec itself supplies it from general knowledge (93_implementation_defined.md G1); log entry 9. -/
def finiteValue (p b s e m : Nat) : ℚ :=
  if e = 0 then (-1) ^ s * 2 ^ ((1 : ℤ) - b) * ((m : ℚ) / 2 ^ p)
  else (-1) ^ s * 2 ^ ((e : ℤ) - b) * (1 + (m : ℚ) / 2 ^ p)

/-- The value of a finite 32-bit pattern; `none` for an infinity or a NaN (R64). -/
def Single.value (f : U32) : Option ℚ :=
  if (Single.fpClass f).finite then
    some (finiteValue Config.fSigBits Config.fBias (Single.sign f) (Single.exp f) (Single.sig f))
  else none

/-- The value of a finite 16-bit pattern; `none` for an infinity or a NaN (R64). -/
def Half.value (h : U16) : Option ℚ :=
  if (Half.fpClass h).finite then
    some (finiteValue Config.hSigBits Config.hBias (Half.sign h) (Half.exp h) (Half.sig h))
  else none

/-- The magnitude of the half pattern `c` without sign, for `c` from `0x0000` to `0x7c00`, where `0x7c00` stands for 2^16:
the candidates among which `encode` picks the nearest (40_encode.md R115). -/
def Half.candidate (c : Nat) : ℚ :=
  finiteValue Config.hSigBits Config.hBias 0 (c / 2 ^ Config.hSigBits) (c % 2 ^ Config.hSigBits)

/-- The discarded bits are exactly half a unit of the last kept place (00_scope.md section 7, 40_encode.md R121): on the
regular path 13 bits of the significand field, on the subnormal path `126 - e` bits of the 24-bit significand. -/
def Single.isTie (f : U32) : Bool :=
  decide (113 ≤ Single.exp f ∧ Single.exp f ≤ 142 ∧ Single.sig f % 2 ^ 13 = 2 ^ 12) ||
    decide (102 ≤ Single.exp f ∧ Single.exp f ≤ 112 ∧
      (2 ^ 23 + Single.sig f) % 2 ^ (126 - Single.exp f) = 2 ^ (125 - Single.exp f))

end Sys2Proof.Machine
end

