-- ==== Sys2Proof/Machine/Ports.lean ====
section
/-! DEFINITION. The port view (10_state.md R30, R31): three combinational units side by side, each output a function of its own
unit's input, and the command port wired to them. It is the second, equivalent presentation of the seven functions, and the
reference the command-word machine is stated against. No port stores anything, so no port is in `State` (R21, R27). -/

namespace Sys2Proof.Machine

/-- The input ports of the three units (R30). -/
structure PortsIn where
  f32_i : U32
  h16_i : U16
  c16_i : U16
deriving DecidableEq, Repr

/-- The output ports of the three units (R30). -/
structure PortsOut where
  f16_o       : U16
  f32_o       : U32
  is_nan_o    : U1
  is_inf_o    : U1
  is_finite_o : U1
deriving DecidableEq, Repr

/-- The block: "outputs are a function of the same unit's inputs alone, with no clock and no storage" (R30). -/
def blockOutputs (p : PortsIn) : PortsOut :=
  { f16_o := Codec.encode p.f32_i,
    f32_o := Codec.decode p.h16_i,
    is_nan_o := Codec.isNaN p.c16_i,
    is_inf_o := Codec.isInf p.c16_i,
    is_finite_o := Codec.isFinite p.c16_i }

/-- The operand port wired to the units' inputs (30_encoding.md R72, R74). DEDUCED: the spec wires `arg` to the selected
unit's input and does not say what the others see; the result does not depend on it (log entry 11). -/
def wireInputs (c : Command) : PortsIn := { f32_i := c.arg, h16_i := c.half, c16_i := c.half }

/-- `op` selects which unit's output is shown on `res` (R72, R75). -/
def selectOutput (op : OpNum) (o : PortsOut) : U32 :=
  if op = 0#3 then zext32 o.f16_o
  else if op = 1#3 then o.f32_o
  else if op = 2#3 then zext32 o.is_nan_o
  else if op = 3#3 then zext32 o.is_inf_o
  else zext32 o.is_finite_o

/-- `res` as a function of `cmd` alone (R31); none for a reserved word (R76). -/
def resPort (cmd : CmdWord) : Option U32 :=
  if (CmdWord.command cmd).wf then
    some (selectOutput (CmdWord.command cmd).op (blockOutputs (wireInputs (CmdWord.command cmd))))
  else none

end Sys2Proof.Machine
end

