-- ==== Sys2Proof/Safety.lean ====
section
/-! DEFINITION. What counts as a safe run, in the terms claims use. Nothing faults (60_exceptions.md R232), so the one way a run
goes wrong is a reserved command word: it is refused, and the refusal stands for the whole run (30_encoding.md R76, R82). -/

namespace Sys2Proof

/-- The run from `s` is never refused. -/
def SafeRun (s : Machine.State) : Prop := ∀ k r, Host.Core.run core k s ≠ .refused r

/-- No word still to be presented is reserved. -/
def allLegal (s : Machine.State) : Bool := s.pending.all (fun c => (CmdWord.command c).wf)

/-- The results of a list of command words, each by its own word alone, or none when some word is reserved (R82). -/
def runWords : List CmdWord → Option (List U32)
  | [] => some []
  | c :: rest =>
    match Machine.resPort c, runWords rest with
    | some r, some rs => some (r :: rs)
    | _, _ => none

/-- A 32-bit word that some operation can give as its result: `ENCODE` and the predicates leave `res[31:16]` zero
(30_encoding.md R75); `DECODE` leaves `res[12:0]` zero, with an exponent field 0 (then the significand is zero), 103 to 142,
or 255 (41_decode.md R152). -/
def possibleResult (r : U32) : Bool :=
  r.extractLsb' 16 16 == 0#16 ||
    (r.extractLsb' 0 13 == 0#13 &&
      (Machine.Single.exp r == 0 && Machine.Single.sig r == 0 ||
        decide (103 ≤ Machine.Single.exp r ∧ Machine.Single.exp r ≤ 142) ||
        Machine.Single.exp r == 255))

/-- Every result read so far is one that some operation can give. -/
def ResultsPossible (s : Machine.State) : Prop := ∀ r ∈ s.results, possibleResult r = true

end Sys2Proof
end

