-- ==== Sys2Proof/Certificates/Slice0/Obligations.lean ====
section
/-! DEFINITION. The statements for the provers. Each says what the spec's numbered rules say of the machine or of an operation;
results are written as arithmetic on the fields of 30_encoding.md R60 and R61, not by the functions the meanings call, wherever
the rule gives them so. `(s with results := s.results ++ [r])` is the whole frame: the result is read and nothing else changes,
for the machine has no register, flag, memory or exception state (10_state.md R20, 60_exceptions.md R220). -/

open Sys2Proof
open Sys2Proof.Machine

/-! ### The step, the decoder and the command word -/

/-- When the next word decodes, a step is `exec` of the instruction with the word taken from the driver's list. The list is
the model's own (log entry 1). -/
def Obligations.StepRunsDecodedWord : Prop :=
  ∀ (s : State) (c : CmdWord) (rest : List CmdWord) (i : Instr),
    s.pending = c :: rest → decodeWord c = .ok i → step s = exec i { s with pending := rest }

/-- 30_encoding.md R76 (the spec's decision D6): a step refuses exactly the reserved words, and names why. -/
def Obligations.StepRefusesExactlyReservedWords : Prop :=
  ∀ (s : State) (c : CmdWord) (rest : List CmdWord), s.pending = c :: rest →
    (5 ≤ c.toNat / 2 ^ 32 → step s = .refused (.reservedWord .opReserved)) ∧
    (1 ≤ c.toNat / 2 ^ 32 → c.toNat / 2 ^ 32 ≤ 4 → c.toNat / 2 ^ 16 % 2 ^ 16 ≠ 0 →
      step s = .refused (.reservedWord .operandHighBitsSet)) ∧
    (c.toNat / 2 ^ 32 = 0 ∨ (c.toNat / 2 ^ 32 ≤ 4 ∧ c.toNat / 2 ^ 16 % 2 ^ 16 = 0) → ∃ t, step s = .next t)

/-- With no word left to present a step changes nothing. DESIGN CHOICE of the model (log entry 2), beside 70_reset_and_hazards.md
R259 "the block never stops, halts or exits". -/
def Obligations.StepWithNothingPresentedIsIdle : Prop :=
  ∀ s : State, s.pending = [] → step s = .next s

/-- Decoding an encoded instruction gives it back; a pseudo-operation gives the operation it stands for (R73, R81; the spec's
decisions D5, D7). Every operand is covered. -/
def Obligations.DecodeOfEncodeIsCanonical : Prop :=
  ∀ i : Instr, decodeWord (encodeInstr i) = .ok i.canonical ∧ (i.wf = true → decodeWord (encodeInstr i) = .ok i)

/-- A word that decodes is the word of what it decodes to, which is never a pseudo-operation: one word per operation and operand
(R77, R81; the spec's decisions D5, D6). -/
def Obligations.EncodeOfDecodeIsTheWord : Prop :=
  ∀ (c : CmdWord) (i : Instr), decodeWord c = .ok i → encodeInstr i = c ∧ i.wf = true

/-- The decoder reads a row's operation exactly from the words with `c & mask == match` of the row; the rows are disjoint, and a word
that matches none is reserved (R73; the spec's decision D5). -/
def Obligations.OpcodeTableAgreesWithDecoder : Prop :=
  ∀ c : CmdWord,
    (∀ r ∈ opTable, r.spells c = true ↔ ∃ i, decodeWord c = .ok i ∧ i.mnemonic = r.mnemonic) ∧
    (∀ r ∈ opTable, ∀ r' ∈ opTable, r.spells c = true → r'.spells c = true → r = r') ∧
    ((∀ r ∈ opTable, r.spells c = false) ↔ ∃ why, decodeWord c = .error why)

/-- Ten of the command words 95_test_vectors.md prints: six of section 5.1, at least one for each operation number, decode to their
lines (its `DECODE 0xffff` is left out), and the four reserved words of section 5.5 do not decode. -/
def Obligations.WordsOfTheSpecDecode : Prop :=
  decodeWord 0x03f800000#35 = .ok (.encode 0x3f800000#32) ∧
  decodeWord 0x100003c00#35 = .ok (.decode 0x3c00#16) ∧
  decodeWord 0x200007e00#35 = .ok (.isNaN 0x7e00#16) ∧
  decodeWord 0x30000fc00#35 = .ok (.isInf 0xfc00#16) ∧
  decodeWord 0x400007bff#35 = .ok (.isFinite 0x7bff#16) ∧
  decodeWord 0x0ffffffff#35 = .ok (.encode 0xffffffff#32) ∧
  decodeWord 0x100013c00#35 = .error .operandHighBitsSet ∧
  decodeWord 0x500000000#35 = .error .opReserved ∧
  decodeWord 0x7ffffffff#35 = .error .opReserved ∧
  decodeWord 0x4ffff0000#35 = .error .operandHighBitsSet

/-- The assembler reads back every printed line, with any blanks and any comment behind it, and the disassembler prints the primary
operation of a pseudo-operation's word (R80, R81; the spec's decisions D7, D20; blanks are log entry 8). -/
def Obligations.AssemblyReadsBackPrintedLines : Prop :=
  ∀ (i : Instr) (n : Nat) (comment : List Char),
    Asm.readLine (Asm.printLine i) = some i ∧
    Asm.readLine (Asm.printLine i ++ List.replicate n ' ' ++ ';' :: comment) = some i ∧
    Asm.assemble (Asm.printLine i) = some (encodeInstr i) ∧
    Asm.disassemble (encodeInstr i) = some (Asm.printLine i.canonical)

/-! ### Runs, the port view, safety -/

/-- The command-word machine shows on `res` what the port view shows: the output of the unit `op` selects, with `arg` wired to its
input; a word without a `res` is refused (10_state.md R31, 30_encoding.md R75; the spec's decisions D4, D21). -/
def Obligations.StepShowsTheSelectedUnitOutput : Prop :=
  ∀ (s : State) (c : CmdWord) (rest : List CmdWord), s.pending = c :: rest →
    (∀ r, resPort c = some r → step s = .next { pending := rest, results := s.results ++ [r] }) ∧
    (resPort c = none → ∃ why, step s = .refused (.reservedWord why))

/-- 30_encoding.md R82 (the spec's decisions D20, D22): the run of any list of command words is the list of their own results in order,
or the whole run is refused when some word is reserved. Steps beyond the last word are the idle step, a DESIGN CHOICE of the model
(log entry 2), and the two lists are the model's own (log entry 1). -/
def Obligations.RunIsTheListOfResultsOrRefused : Prop :=
  ∀ cs : List CmdWord,
    (∀ rs, runWords cs = some rs →
      ∀ k, cs.length ≤ k → ∀ before, Host.Core.run core k { pending := cs, results := before } =
        .next { pending := [], results := before ++ rs }) ∧
    (runWords cs = none →
      ∀ k, cs.length ≤ k → ∀ before, ∃ why, Host.Core.run core k { pending := cs, results := before } =
        .refused (.reservedWord why))

/-- A run is safe exactly when no word still to be presented is reserved: nothing else can stop it
(60_exceptions.md R232, derived there). That no later step is refused once the list is empty is the idle step, a DESIGN CHOICE of the
model (log entry 2). -/
def Obligations.RunIsSafeIffEveryWordIsLegal : Prop :=
  ∀ s : State, SafeRun s ↔ allLegal s = true

/-- 60_exceptions.md R220, 40_encode.md R117, 41_decode.md R149, 42_classify.md R164: every operation completes from every state, for every
operand, with exactly one result; it depends on the instruction alone, not on what was run before or is still to come; nothing else
changes, and there is no fault to raise. -/
def Obligations.EveryOperationCompletesIndependently : Prop :=
  (∀ i : Instr, ∃! r : U32, ∀ s : State, exec i s = .next { s with results := s.results ++ [r] }) ∧
  (Fault → False)

/-- No step rewrites a result already read or reorders the words to come, and each word presented gives exactly one result. The lists are
the model's own (log entry 1). -/
def Obligations.StepOnlyAppendsResults : Prop :=
  ∀ s t : State, step s = .next t →
    s.results <+: t.results ∧ t.pending <:+ s.pending ∧
    t.results.length + t.pending.length = s.results.length + s.pending.length

/-- An invariant every step keeps: each result read is one that some operation can give (30_encoding.md R75 and 41_decode.md R152, derived
there). -/
def Obligations.StepKeepsResultsPossible : Prop :=
  ∀ s t : State, ResultsPossible s → step s = .next t → ResultsPossible t

/-- The invariant holds at reset. Reset itself is the model's choice (log entry 3): the spec has none (10_state.md R32). -/
def Obligations.ResetResultsPossible : Prop :=
  ResultsPossible State.reset ∧ State.reset.results = [] ∧ State.reset.pending = []

/-! ### ENCODE and TOHALF -/

/-- 40_encode.md R104: a NaN keeps its sign and its top ten payload bits; when these are zero the lowest bit is set. -/
def Obligations.EncodeNaNKeepsTopPayloadBits : Prop :=
  ∀ (f : U32) (s : State), Single.exp f = 255 → Single.sig f ≠ 0 →
    exec (.encode f) s = .next { s with results := s.results ++
      [BitVec.ofNat 32 (Single.sign f * 2 ^ 15 + 0x7c00 +
        if Single.sig f / 2 ^ 13 = 0 then 1 else Single.sig f / 2 ^ 13)] } ∧
    (Single.sig f / 2 ^ 13 = 0 ↔ 0x00000001 ≤ Single.sig f ∧ Single.sig f ≤ 0x00001fff)

/-- 40_encode.md R105: an infinity gives the infinity of its sign. -/
def Obligations.EncodeInfinityGivesInfinity : Prop :=
  (∀ (f : U32) (s : State), Single.exp f = 255 → Single.sig f = 0 →
    exec (.encode f) s = .next { s with results := s.results ++ [BitVec.ofNat 32 (Single.sign f * 2 ^ 15 + 0x7c00)] }) ∧
  (∀ s : State, exec (.encode 0x7f800000#32) s = .next { s with results := s.results ++ [0x00007c00#32] }) ∧
  (∀ s : State, exec (.encode 0xff800000#32) s = .next { s with results := s.results ++ [0x0000fc00#32] })

/-- 40_encode.md R106: a finite magnitude of 2^16 or more gives signed infinity, never the largest finite half, and nothing else changes. -/
def Obligations.EncodeFiniteOverflowGivesInfinity : Prop :=
  ∀ (f : U32) (s : State), 143 ≤ Single.exp f → Single.exp f ≤ 254 →
    exec (.encode f) s = .next { s with results := s.results ++ [BitVec.ofNat 32 (Single.sign f * 2 ^ 15 + 0x7c00)] }

/-- 40_encode.md R107: below exponent field 102 the result is the zero of the operand's sign, whatever the significand; at 102 it is the
smallest subnormal. -/
def Obligations.EncodeUnderflowGivesSignedZero : Prop :=
  ∀ (f : U32) (s : State),
    (Single.exp f ≤ 101 →
      exec (.encode f) s = .next { s with results := s.results ++ [BitVec.ofNat 32 (Single.sign f * 2 ^ 15)] }) ∧
    (Single.exp f = 102 →
      exec (.encode f) s = .next { s with results := s.results ++ [BitVec.ofNat 32 (Single.sign f * 2 ^ 15 + 1)] })

/-- 40_encode.md R108: the subnormal path: the 24-bit significand shifted right by `113 - e`, the bias added, 13 bits dropped, no
exponent added. Its two closing sentences are marked derived by the spec: the smallest result and the carry. -/
def Obligations.EncodeSubnormalPathRoundsByBias : Prop :=
  ∀ (f : U32) (s : State), 102 ≤ Single.exp f → Single.exp f ≤ 112 →
    exec (.encode f) s = .next { s with results := s.results ++
      [BitVec.ofNat 32 (Single.sign f * 2 ^ 15 +
        ((2 ^ 23 + Single.sig f) / 2 ^ (113 - Single.exp f) + 2 ^ 12) / 2 ^ 13)] } ∧
    1 ≤ Half.mag (Codec.encode f) ∧ Half.mag (Codec.encode f) ≤ 0x0400 ∧
    (Half.mag (Codec.encode f) = 0x0400 ↔ Single.exp f = 112 ∧ 0x007fe000 ≤ Single.sig f)

/-- 40_encode.md R109: the regular case: the exponent rebased by 112, the bias added to the significand field, 13 bits dropped, the parts
summed; a carry raises the exponent field and leaves the significand field zero, and with `e == 142` gives infinity. The bias is
always added (`TIE_RULE = bias`: log entry 4). -/
def Obligations.EncodeRegularCaseRoundsByBias : Prop :=
  ∀ (f : U32) (s : State), 113 ≤ Single.exp f → Single.exp f ≤ 142 →
    exec (.encode f) s = .next { s with results := s.results ++
      [BitVec.ofNat 32 (Single.sign f * 2 ^ 15 + (Single.exp f - 112) * 2 ^ 10 + (Single.sig f + 2 ^ 12) / 2 ^ 13)] } ∧
    ((Single.sig f + 2 ^ 12) / 2 ^ 13 = 0x0400 ↔ 0x007ff000 ≤ Single.sig f) ∧
    (0x007ff000 ≤ Single.sig f →
      Half.exp (Codec.encode f) = Single.exp f - 111 ∧ Half.sig (Codec.encode f) = 0 ∧
      (Single.exp f = 142 → Codec.encode f = BitVec.ofNat 16 (Single.sign f * 2 ^ 15 + 0x7c00)))

/-- 40_encode.md R121 (derived there): the rounding step is quotient and remainder, and so are both rounding paths of `encode`; a
discarded part of exactly half goes up. -/
def Obligations.RoundingIsQuotientAndRemainder : Prop :=
  (∀ S k : Nat, S < 2 ^ 24 → 13 ≤ k → k ≤ 24 →
    (Codec.roundByBias (BitVec.ofNat 32 S) (k - 13)).toNat = S / 2 ^ k + if 2 ^ (k - 1) ≤ S % 2 ^ k then 1 else 0) ∧
  (∀ f : U32, 102 ≤ Single.exp f → Single.exp f ≤ 112 →
    (Codec.encode f).toNat = Single.sign f * 2 ^ 15 + (2 ^ 23 + Single.sig f) / 2 ^ (126 - Single.exp f) +
      if 2 ^ (125 - Single.exp f) ≤ (2 ^ 23 + Single.sig f) % 2 ^ (126 - Single.exp f) then 1 else 0) ∧
  (∀ f : U32, 113 ≤ Single.exp f → Single.exp f ≤ 142 →
    (Codec.encode f).toNat = Single.sign f * 2 ^ 15 + (Single.exp f - 112) * 2 ^ 10 + Single.sig f / 2 ^ 13 +
      if 2 ^ 12 ≤ Single.sig f % 2 ^ 13 then 1 else 0)

/-- 40_encode.md R114 (derived there): the two tie rules differ on exactly the ties whose kept last bit is 0, and there the bias gives
one more. The even rule is PRESUMED, on the exact remainder (log entry 10). -/
def Obligations.TieRulesDifferExactlyOnEvenTies : Prop :=
  ∀ f : U32,
    (Codec.encodeBy .bias f ≠ Codec.encodeBy .even f ↔
      (113 ≤ Single.exp f ∧ Single.exp f ≤ 142 ∧ Single.sig f % 2 ^ 14 = 2 ^ 12) ∨
      (102 ≤ Single.exp f ∧ Single.exp f ≤ 112 ∧
        (2 ^ 23 + Single.sig f) % 2 ^ (126 - Single.exp f) = 2 ^ (125 - Single.exp f) ∧
        (2 ^ 23 + Single.sig f) / 2 ^ (126 - Single.exp f) % 2 = 0)) ∧
    (Codec.encodeBy .bias f ≠ Codec.encodeBy .even f → Codec.encodeBy .bias f = Codec.encodeBy .even f + 1#16)

/-- The table of 40_encode.md R115 (derived there) but for its fourth row, which the next statement gives: sign, and magnitude by the
range of the operand's magnitude. The tie rule is bias (log entry 4); values are R64's (log entry 9). -/
def Obligations.EncodeResultByMagnitudeRange : Prop :=
  ∀ (f : U32) (x : ℚ), Single.value f = some x →
    Half.sign (Codec.encode f) = Single.sign f ∧
    (|x| < 2 ^ (-25 : ℤ) → Half.mag (Codec.encode f) = 0) ∧
    (2 ^ (-25 : ℤ) ≤ |x| → |x| < 2 ^ (-14 : ℤ) - 2 ^ (-25 : ℤ) →
      (Half.mag (Codec.encode f) : ℤ) = ⌊|x| * 2 ^ 24 + 1 / 2⌋ ∧ Half.fpClass (Codec.encode f) = .subnormal) ∧
    (2 ^ (-14 : ℤ) - 2 ^ (-25 : ℤ) ≤ |x| → |x| < 2 ^ (-14 : ℤ) → Half.mag (Codec.encode f) = 0x0400) ∧
    (2 ^ (-14 : ℤ) ≤ |x| → |x| < 65520 → Half.fpClass (Codec.encode f) = .normal) ∧
    (65520 ≤ |x| → Half.mag (Codec.encode f) = 0x7c00)

/-- The closing sentence of 40_encode.md R115 (derived there): the magnitude of the result is the half magnitude nearest to `abs(x)`, the
larger at a tie, among all finite half magnitudes and 2^16 standing for infinity. The tie rule is bias (log entry 4); values are R64's
(log entry 9). -/
def Obligations.EncodeGivesTheNearestHalf : Prop :=
  ∀ (f : U32) (x : ℚ) (c : Nat), Single.value f = some x → c ≤ 0x7c00 →
    abs (Half.candidate (Half.mag (Codec.encode f)) - abs x) ≤ abs (Half.candidate c - abs x) ∧
    (abs (Half.candidate (Half.mag (Codec.encode f)) - abs x) = abs (Half.candidate c - abs x) →
      c ≤ Half.mag (Codec.encode f))

/-- 45_properties.md R191 (derived there), under either tie rule: below 65520 the result is finite and off by at most half the spacing of
half values, with equality exactly at ties. Values are R64's (log entry 9); the even rule is PRESUMED, on the exact remainder (log
entry 10). -/
def Obligations.EncodeErrorIsAtMostHalfASpacing : Prop :=
  ∀ (t : Config.TieRule) (f : U32) (x : ℚ), Single.value f = some x → |x| < 65520 →
    ∃ y, Half.value (Codec.encodeBy t f) = some y ∧
      (|x| < 2 ^ (-14 : ℤ) →
        |y - x| ≤ 2 ^ (-25 : ℤ) ∧ (|y - x| = 2 ^ (-25 : ℤ) ↔ Single.isTie f = true)) ∧
      (∀ E : ℤ, -14 ≤ E → E ≤ 15 → 2 ^ E ≤ |x| → |x| < 2 ^ (E + 1) →
        |y - x| ≤ 2 ^ (E - 11) ∧ (|y - x| = 2 ^ (E - 11) ↔ Single.isTie f = true))

/-- 45_properties.md R190 and R197 (derived there), under either tie rule: a larger magnitude never encodes to a smaller one. The even rule
is PRESUMED (log entry 10). -/
def Obligations.EncodeIsMonotoneOnMagnitudes : Prop :=
  ∀ (t : Config.TieRule) (f g : U32), Single.fpClass f ≠ .nan → Single.fpClass g ≠ .nan →
    Single.mag f ≤ Single.mag g → Half.mag (Codec.encodeBy t f) ≤ Half.mag (Codec.encodeBy t g)

/-- 40_encode.md R118 and 41_decode.md R146 (derived there): the sign bit goes straight through and nothing else depends on it, under
either tie rule (the even one: log entry 10). -/
def Obligations.ConversionsAreSignSymmetric : Prop :=
  (∀ (t : Config.TieRule) (f : U32), Codec.encodeBy t (f ^^^ 0x80000000#32) = Codec.encodeBy t f ^^^ 0x8000#16) ∧
  (∀ h : U16, Codec.decode (h ^^^ 0x8000#16) = Codec.decode h ^^^ 0x80000000#32)

/-- 40_encode.md R120 (the spec's decision D7): `TOHALF` completes with the result of `ENCODE` on the same 32 bits and has its word. -/
def Obligations.ToHalfIsEncodeOfTheSameBits : Prop :=
  ∀ (v : U32) (s : State),
    (∃ r, exec (.toHalf v) s = .next { s with results := s.results ++ [r] } ∧ r.extractLsb' 16 16 = 0#16 ∧
      exec (.encode v) s = .next { s with results := s.results ++ [r] }) ∧
    encodeInstr (.toHalf v) = encodeInstr (.encode v) ∧
    exec (.toHalf 0x3f800000#32) s = .next { s with results := s.results ++ [0x00003c00#32] } ∧
    exec (.toHalf 0xbf800000#32) s = .next { s with results := s.results ++ [0x0000bc00#32] }

/-! ### DECODE and TOFLOAT -/

/-- 41_decode.md R142: a zero gives the zero of its sign. -/
def Obligations.DecodeZeroGivesSignedZero : Prop :=
  (∀ (h : U16) (s : State), Half.exp h = 0 → Half.sig h = 0 →
    exec (.decode h) s = .next { s with results := s.results ++ [BitVec.ofNat 32 (Half.sign h * 2 ^ 31)] }) ∧
  (∀ s : State, exec (.decode 0x0000#16) s = .next { s with results := s.results ++ [0x00000000#32] }) ∧
  (∀ s : State, exec (.decode 0x8000#16) s = .next { s with results := s.results ++ [0x80000000#32] })

/-- 41_decode.md R143 with the spec's decision D9 (90_conflicts.md C5) on what `shift_count` counts: the leading one, at index `p`, moves
to bit 10 and is dropped, the exponent field is `103 + p`; the loop form gives the same. -/
def Obligations.DecodeSubnormalNormalizes : Prop :=
  ∀ (h : U16) (s : State) (p : Nat), Half.exp h = 0 → 2 ^ p ≤ Half.sig h → Half.sig h < 2 ^ (p + 1) →
    exec (.decode h) s = .next { s with results := s.results ++
      [BitVec.ofNat 32 (Half.sign h * 2 ^ 31 + (103 + p) * 2 ^ 23 + (Half.sig h * 2 ^ (10 - p) - 2 ^ 10) * 2 ^ 13)] } ∧
    Codec.subnormalMagnitudeByLoop (Codec.hSig h) = Codec.subnormalMagnitude (Codec.hSig h)

/-- 41_decode.md R144: an infinity or a NaN gets the all-ones exponent, and its significand field moves up 13 places. -/
def Obligations.DecodeInfinityAndNaNMovePayload : Prop :=
  (∀ (h : U16) (s : State), Half.exp h = 31 →
    exec (.decode h) s = .next { s with results := s.results ++
      [BitVec.ofNat 32 (Half.sign h * 2 ^ 31 + 0x7f800000 + Half.sig h * 2 ^ 13)] }) ∧
  (∀ s : State, exec (.decode 0x7c00#16) s = .next { s with results := s.results ++ [0x7f800000#32] }) ∧
  (∀ s : State, exec (.decode 0xfc00#16) s = .next { s with results := s.results ++ [0xff800000#32] })

/-- 41_decode.md R145: a normal pattern without its sign is rebased by `0x1c000` and moved up 13 places; the exponent field rises by 112
and the significand is untouched. -/
def Obligations.DecodeNormalRebiases : Prop :=
  ∀ (h : U16) (s : State), 1 ≤ Half.exp h → Half.exp h ≤ 30 →
    exec (.decode h) s = .next { s with results := s.results ++
      [BitVec.ofNat 32 (Half.sign h * 2 ^ 31 + (Half.mag h + 0x1c000) * 2 ^ 13)] } ∧
    Single.exp (Codec.decode h) = Half.exp h + 112 ∧ Single.sig (Codec.decode h) = Half.sig h * 2 ^ 13

/-- 41_decode.md R148 (derived there): every finite half decodes to exactly its value, an infinity or a NaN to no value. Values are R64's
(log entry 9). -/
def Obligations.DecodeIsExact : Prop :=
  ∀ h : U16, Single.value (Codec.decode h) = Half.value h

/-- 41_decode.md R152 (derived there): the low 13 bits are zero and the exponent field is 0, 103 to 142 or 255, 0 only for the two zeros. -/
def Obligations.DecodeImageHasLowBitsZero : Prop :=
  ∀ h : U16,
    (Codec.decode h).extractLsb' 0 13 = 0#13 ∧
    ((Single.exp (Codec.decode h) = 0 ∧ Single.sig (Codec.decode h) = 0 ∧ Half.mag h = 0) ∨
      (103 ≤ Single.exp (Codec.decode h) ∧ Single.exp (Codec.decode h) ≤ 142) ∨
      Single.exp (Codec.decode h) = 255)

/-- 41_decode.md R151 (the spec's decision D7): `TOFLOAT` completes with the result of `DECODE` on the same pattern and has its word. -/
def Obligations.ToFloatIsDecodeOfTheSamePattern : Prop :=
  ∀ (h : U16) (s : State),
    (∃ r, exec (.toFloat h) s = .next { s with results := s.results ++ [r] } ∧
      exec (.decode h) s = .next { s with results := s.results ++ [r] }) ∧
    encodeInstr (.toFloat h) = encodeInstr (.decode h) ∧
    exec (.toFloat 0xbc00#16) s = .next { s with results := s.results ++ [0xbf800000#32] }

/-! ### ISNAN, ISINF and ISFINITE -/

/-- 42_classify.md R160: all-ones exponent field and nonzero significand field; true for exactly two ranges of patterns; with the word and
the port the rule gives it. -/
def Obligations.IsNaNTestsExponentAndPayload : Prop :=
  ∀ h : U16,
    (∀ s : State, exec (.isNaN h) s = .next { s with results := s.results ++
      [if Half.exp h = 31 ∧ Half.sig h ≠ 0 then 1#32 else 0#32] }) ∧
    (∀ p : PortsIn, (blockOutputs { p with c16_i := h }).is_nan_o =
      if Half.exp h = 31 ∧ Half.sig h ≠ 0 then 1#1 else 0#1) ∧
    (Half.exp h = 31 ∧ Half.sig h ≠ 0 ↔
      (0x7c01 ≤ h.toNat ∧ h.toNat ≤ 0x7fff) ∨ (0xfc01 ≤ h.toNat ∧ h.toNat ≤ 0xffff)) ∧
    encodeInstr (.isNaN h) = BitVec.ofNat 35 (2 * 2 ^ 32 + h.toNat)

/-- 42_classify.md R161: true for exactly the two infinities, whatever the sign; with the word and the port the rule gives it. -/
def Obligations.IsInfIsTrueOfTheTwoInfinities : Prop :=
  ∀ h : U16,
    (∀ s : State, exec (.isInf h) s = .next { s with results := s.results ++
      [if Half.mag h = 0x7c00 then 1#32 else 0#32] }) ∧
    (∀ p : PortsIn, (blockOutputs { p with c16_i := h }).is_inf_o = if Half.mag h = 0x7c00 then 1#1 else 0#1) ∧
    (Half.mag h = 0x7c00 ↔ h = 0x7c00#16 ∨ h = 0xfc00#16) ∧
    encodeInstr (.isInf h) = BitVec.ofNat 35 (3 * 2 ^ 32 + h.toNat)

/-- 42_classify.md R162: the exponent field is not all ones, significand and sign not looked at; with the word and the port the rule gives
it. -/
def Obligations.IsFiniteTestsTheExponent : Prop :=
  ∀ h : U16,
    (∀ s : State, exec (.isFinite h) s = .next { s with results := s.results ++
      [if Half.exp h ≤ 30 then 1#32 else 0#32] }) ∧
    (∀ p : PortsIn, (blockOutputs { p with c16_i := h }).is_finite_o = if Half.exp h ≤ 30 then 1#1 else 0#1) ∧
    (Half.exp h ≤ 30 ↔ Half.exp h ≠ 31) ∧
    encodeInstr (.isFinite h) = BitVec.ofNat 35 (4 * 2 ^ 32 + h.toNat)

/-- 42_classify.md R163: the three results of one pattern, in any three states, are a one-hot code that follows the class of R63. -/
def Obligations.ClassifierIsOneHotByClass : Prop :=
  ∀ h : U16, ∃ n i t : U32,
    (∀ s : State, exec (.isNaN h) s = .next { s with results := s.results ++ [n] } ∧
      exec (.isInf h) s = .next { s with results := s.results ++ [i] } ∧
      exec (.isFinite h) s = .next { s with results := s.results ++ [t] }) ∧
    (n, i, t) = (if Half.fpClass h = .nan then (1#32, 0#32, 0#32)
      else if Half.fpClass h = .infinity then (0#32, 1#32, 0#32) else (0#32, 0#32, 1#32)) ∧
    n.toNat + i.toNat + t.toNat = 1 ∧ i ||| n = t ^^^ 1#32

/-- 42_classify.md R166 and 45_properties.md R194 (derived there): `ENCODE` gives a NaN exactly for a NaN, and an infinity exactly for the
magnitude patterns from 65520 to infinity. -/
def Obligations.EncodeGivesNaNAndInfinityExactlyWhenDue : Prop :=
  ∀ f : U32,
    (Codec.isNaN (Codec.encode f) = 1#1 ↔ Single.fpClass f = .nan) ∧
    (Codec.isInf (Codec.encode f) = 1#1 ↔ 0x477ff000 ≤ Single.mag f ∧ Single.mag f ≤ 0x7f800000)

/-- 42_classify.md R167 (derived there): the classifier agrees with the class of the expanded pattern. -/
def Obligations.ClassifierAgreesWithExpandedClass : Prop :=
  ∀ h : U16,
    (Codec.isNaN h = 1#1 ↔ Single.fpClass (Codec.decode h) = .nan) ∧
    (Codec.isInf h = 1#1 ↔ Single.fpClass (Codec.decode h) = .infinity) ∧
    (Codec.isFinite h = 1#1 ↔ Single.exp (Codec.decode h) ≠ 255)

/-! ### Properties between the operations -/

/-- 45_properties.md R180, on the machine: `ENCODE` of the result of `DECODE h` gives `h`, for every pattern, zeros, infinities and NaNs
included (the spec derives these). -/
def Obligations.EncodeUndoesDecode : Prop :=
  ∀ (h : U16) (s : State), ∃ d : U32,
    exec (.decode h) s = .next { s with results := s.results ++ [d] } ∧
    exec (.encode d) { s with results := s.results ++ [d] } =
      .next { s with results := s.results ++ [d] ++ [BitVec.ofNat 32 h.toNat] }

/-- 45_properties.md R181, R189 (derived there): different patterns decode differently, and every half pattern is the encoding of one. -/
def Obligations.DecodeIsInjectiveAndEncodeOnto : Prop :=
  (∀ h₁ h₂ : U16, Codec.decode h₁ = Codec.decode h₂ → h₁ = h₂) ∧ (∀ h : U16, ∃ f : U32, Codec.encode f = h)

/-- 45_properties.md R182: bit 31 of the expanded pattern is bit 15 of the operand, bit 15 of the converted one is bit 31 of the operand. -/
def Obligations.ConversionsPreserveTheSignBit : Prop :=
  (∀ (h : U16) (s : State), ∃ r : U32, exec (.decode h) s = .next { s with results := s.results ++ [r] } ∧
    r.getLsbD 31 = h.getLsbD 15) ∧
  (∀ (f : U32) (s : State), ∃ r : U32, exec (.encode f) s = .next { s with results := s.results ++ [r] } ∧
    r.getLsbD 15 = f.getLsbD 31) ∧
  (∀ s : State, exec (.encode 0xc7800000#32) s = .next { s with results := s.results ++ [0x0000fc00#32] } ∧
    exec (.encode 0x80000001#32) s = .next { s with results := s.results ++ [0x00008000#32] } ∧
    exec (.encode 0xffc00000#32) s = .next { s with results := s.results ++ [0x0000fe00#32] })

/-- 45_properties.md R183: the special values of `decode`. -/
def Obligations.DecodeSpecialValues : Prop :=
  ∀ s : State,
    exec (.decode 0x0000#16) s = .next { s with results := s.results ++ [0x00000000#32] } ∧
    exec (.decode 0x8000#16) s = .next { s with results := s.results ++ [0x80000000#32] } ∧
    exec (.decode 0x7c00#16) s = .next { s with results := s.results ++ [0x7f800000#32] } ∧
    exec (.decode 0xfc00#16) s = .next { s with results := s.results ++ [0xff800000#32] } ∧
    exec (.decode 0x3c00#16) s = .next { s with results := s.results ++ [0x3f800000#32] }

/-- 45_properties.md R184: every 32-bit NaN encodes to a half NaN, never to an infinity pattern, with `f[22:13]` as its payload when that is
nonzero and 1 otherwise. -/
def Obligations.EncodedNaNStaysNaN : Prop :=
  ∀ (f : U32) (s : State), f &&& 0x7f800000#32 = 0x7f800000#32 → f &&& 0x007fffff#32 ≠ 0#32 →
    ∃ h : U16, exec (.encode f) s = .next { s with results := s.results ++ [BitVec.ofNat 32 h.toNat] } ∧
      exec (.isNaN h) s = .next { s with results := s.results ++ [1#32] } ∧ h ≠ 0x7c00#16 ∧ h ≠ 0xfc00#16 ∧
      h &&& 0x03ff#16 =
        (if f.extractLsb' 13 10 = 0#10 then 0x0001#16 else (f.extractLsb' 13 10).setWidth 16)

/-- 45_properties.md R186: a magnitude pattern from `0x477ff000` (65520) to infinity encodes to the infinity of its sign. -/
def Obligations.EncodeSaturatesFrom65520 : Prop :=
  (∀ (f : U32) (s : State), 0x477ff000 ≤ Single.mag f → Single.mag f ≤ 0x7f800000 →
    exec (.encode f) s = .next { s with results := s.results ++
      [if f.getLsbD 31 then 0x0000fc00#32 else 0x00007c00#32] }) ∧
  (∀ s : State, exec (.encode 0x477fe001#32) s = .next { s with results := s.results ++ [0x00007bff#32] })

/-- 45_properties.md R187: below 2^-25 the result is signed zero; from 2^-25 up to but not including 1.5 * 2^-24 it is the smallest
subnormal; under the `even` rule only the pattern of 2^-25 itself differs there. The tie rule of `ENCODE` is bias (log entry 4), and the
last two clauses rest on the PRESUMED even rule (log entry 10). -/
def Obligations.EncodeUnderflowRanges : Prop :=
  (∀ (f : U32) (s : State), Single.mag f ≤ 0x32ffffff →
    exec (.encode f) s = .next { s with results := s.results ++
      [if f.getLsbD 31 then 0x00008000#32 else 0x00000000#32] }) ∧
  (∀ (f : U32) (s : State), 0x33000000 ≤ Single.mag f → Single.mag f ≤ 0x33bfffff →
    exec (.encode f) s = .next { s with results := s.results ++
      [if f.getLsbD 31 then 0x00008001#32 else 0x00000001#32] }) ∧
  (∀ f : U32, Single.mag f = 0x33000000 → Half.mag (Codec.encodeBy .even f) = 0) ∧
  (∀ f : U32, 0x33000001 ≤ Single.mag f → Single.mag f ≤ 0x33bfffff → Half.mag (Codec.encodeBy .even f) = 1)

/-- 45_properties.md R188: the document's concrete example, both ways. -/
def Obligations.OneEncodesAndDecodes : Prop :=
  ∀ s : State,
    exec (.encode 0x3f800000#32) s = .next { s with results := s.results ++ [0x00003c00#32] } ∧
    exec (.decode 0x3c00#16) s = .next { s with results := s.results ++ [0x3f800000#32] }

/-- 45_properties.md R193 and R197 (derived there), under either tie rule: `decode` after `encode` is a projection, and loses nothing exactly
on the image of `decode`. The even rule is PRESUMED (log entry 10). -/
def Obligations.DecodeAfterEncodeIsAProjection : Prop :=
  ∀ (t : Config.TieRule) (f : U32),
    Codec.encodeBy t (Codec.decode (Codec.encodeBy t f)) = Codec.encodeBy t f ∧
    (Codec.decode (Codec.encodeBy t f) = f ↔ ∃ h, Codec.decode h = f)

/-- 45_properties.md R197 (derived there): the document's properties R180, R182, R184, R186 and R188 under the `even` tie rule as well, which
is not this hardware's (log entries 4 and 10). -/
def Obligations.DocumentPropertiesHoldUnderEvenTies : Prop :=
  (∀ h : U16, Codec.encodeBy .even (Codec.decode h) = h) ∧
  (∀ f : U32, (Codec.encodeBy .even f).getLsbD 15 = f.getLsbD 31) ∧
  (∀ f : U32, Single.fpClass f = .nan → Half.fpClass (Codec.encodeBy .even f) = .nan) ∧
  (∀ f : U32, 0x477ff000 ≤ Single.mag f → Single.mag f ≤ 0x7f800000 → Half.mag (Codec.encodeBy .even f) = 0x7c00) ∧
  (∀ f : U32, Single.mag f < 0x477ff000 → (Half.fpClass (Codec.encodeBy .even f)).finite = true) ∧
  Codec.encodeBy .even 0x3f800000#32 = 0x3c00#16

/-- 30_encoding.md R62: the classes of a 32-bit pattern by ranges of its magnitude pattern; the sign plays no part. The second half says the
same of the 16-bit classes, whose counts (R63) it leaves out. -/
def Obligations.ClassesAreMagnitudeRanges : Prop :=
  (∀ f : U32,
    (Single.fpClass f = .zero ↔ Single.mag f = 0) ∧
    (Single.fpClass f = .subnormal ↔ 0x00000001 ≤ Single.mag f ∧ Single.mag f ≤ 0x007fffff) ∧
    (Single.fpClass f = .normal ↔ 0x00800000 ≤ Single.mag f ∧ Single.mag f ≤ 0x7f7fffff) ∧
    (Single.fpClass f = .infinity ↔ Single.mag f = 0x7f800000) ∧
    (Single.fpClass f = .nan ↔ 0x7f800001 ≤ Single.mag f)) ∧
  (∀ h : U16,
    (Half.fpClass h = .zero ↔ Half.mag h = 0) ∧
    (Half.fpClass h = .subnormal ↔ 0x0001 ≤ Half.mag h ∧ Half.mag h ≤ 0x03ff) ∧
    (Half.fpClass h = .normal ↔ 0x0400 ≤ Half.mag h ∧ Half.mag h ≤ 0x7bff) ∧
    (Half.fpClass h = .infinity ↔ Half.mag h = 0x7c00) ∧
    (Half.fpClass h = .nan ↔ 0x7c01 ≤ Half.mag h))

/-- 30_encoding.md R68: the eight named constants have the class and the value of the table. Values are R64's (log entry 9). -/
def Obligations.NamedConstantsHaveTheirClassAndValue : Prop :=
  Half.value Config.hPZero = some 0 ∧ Half.value Config.hNZero = some 0 ∧ Half.value Config.hOne = some 1 ∧
  Half.value Config.hNegOne = some (-1) ∧ Half.value Config.hMax = some 65504 ∧
  Half.value Config.hPInf = none ∧ Half.value Config.hNInf = none ∧ Half.value Config.hNaN = none ∧
  Half.fpClass Config.hPZero = .zero ∧ Half.fpClass Config.hNZero = .zero ∧ Half.fpClass Config.hOne = .normal ∧
  Half.fpClass Config.hNegOne = .normal ∧ Half.fpClass Config.hMax = .normal ∧
  Half.fpClass Config.hPInf = .infinity ∧ Half.fpClass Config.hNInf = .infinity ∧ Half.fpClass Config.hNaN = .nan
end

