-- ==== Sys2Proof/Laws/Formats.lean ====
section
/-! SUPPORT. The fields of a pattern as quotients and remainders of its number, their bounds, and how they put the pattern
together again (30_encoding.md R60, R61). -/

namespace Sys2Proof.Machine

theorem Single.sign_eq (f : U32) : Single.sign f = f.toNat / 2 ^ 31 := by
  have := f.isLt
  simp only [Single.sign, BitVec.extractLsb'_toNat, Nat.shiftRight_eq_div_pow]; omega

theorem Single.exp_eq (f : U32) : Single.exp f = f.toNat / 2 ^ 23 % 2 ^ 8 := by
  simp only [Single.exp, BitVec.extractLsb'_toNat, Nat.shiftRight_eq_div_pow]

theorem Single.sig_eq (f : U32) : Single.sig f = f.toNat % 2 ^ 23 := by
  simp only [Single.sig, BitVec.extractLsb'_toNat, Nat.shiftRight_zero]

theorem Single.mag_eq (f : U32) : Single.mag f = f.toNat % 2 ^ 31 := by
  simp only [Single.mag, BitVec.extractLsb'_toNat, Nat.shiftRight_zero]

theorem Half.sign_eq (h : U16) : Half.sign h = h.toNat / 2 ^ 15 := by
  have := h.isLt
  simp only [Half.sign, BitVec.extractLsb'_toNat, Nat.shiftRight_eq_div_pow]; omega

theorem Half.exp_eq (h : U16) : Half.exp h = h.toNat / 2 ^ 10 % 2 ^ 5 := by
  simp only [Half.exp, BitVec.extractLsb'_toNat, Nat.shiftRight_eq_div_pow]

theorem Half.sig_eq (h : U16) : Half.sig h = h.toNat % 2 ^ 10 := by
  simp only [Half.sig, BitVec.extractLsb'_toNat, Nat.shiftRight_zero]

theorem Half.mag_eq (h : U16) : Half.mag h = h.toNat % 2 ^ 15 := by
  simp only [Half.mag, BitVec.extractLsb'_toNat, Nat.shiftRight_zero]

theorem Single.sign_le (f : U32) : Single.sign f ≤ 1 := by
  have := f.isLt
  rw [Single.sign_eq]; omega

theorem Single.exp_le (f : U32) : Single.exp f ≤ 255 := by rw [Single.exp_eq]; omega
theorem Single.sig_lt (f : U32) : Single.sig f < 2 ^ 23 := by rw [Single.sig_eq]; omega
theorem Single.mag_lt (f : U32) : Single.mag f < 2 ^ 31 := by rw [Single.mag_eq]; omega

theorem Half.sign_le (h : U16) : Half.sign h ≤ 1 := by
  have := h.isLt
  rw [Half.sign_eq]; omega

theorem Half.exp_le (h : U16) : Half.exp h ≤ 31 := by rw [Half.exp_eq]; omega
theorem Half.sig_lt (h : U16) : Half.sig h < 2 ^ 10 := by rw [Half.sig_eq]; omega
theorem Half.mag_lt (h : U16) : Half.mag h < 2 ^ 15 := by rw [Half.mag_eq]; omega

theorem Single.mag_fields (f : U32) : Single.mag f = Single.exp f * 2 ^ 23 + Single.sig f := by
  rw [Single.mag_eq, Single.exp_eq, Single.sig_eq]; omega

theorem Single.toNat_fields (f : U32) : f.toNat = Single.sign f * 2 ^ 31 + Single.exp f * 2 ^ 23 + Single.sig f := by
  have := f.isLt
  rw [Single.sign_eq, Single.exp_eq, Single.sig_eq]; omega

theorem Half.mag_fields (h : U16) : Half.mag h = Half.exp h * 2 ^ 10 + Half.sig h := by
  rw [Half.mag_eq, Half.exp_eq, Half.sig_eq]; omega

theorem Half.toNat_fields (h : U16) : h.toNat = Half.sign h * 2 ^ 15 + Half.exp h * 2 ^ 10 + Half.sig h := by
  have := h.isLt
  rw [Half.sign_eq, Half.exp_eq, Half.sig_eq]; omega

/-- The sign bit is the sign field. -/
theorem Single.getLsbD_sign (f : U32) : f.getLsbD 31 = decide (Single.sign f = 1) := by
  have h := f.isLt
  rw [Single.sign_eq, BitVec.getLsbD, Nat.testBit_eq_decide_div_mod_eq]
  congr 1; apply propext; omega

theorem Half.getLsbD_sign (h : U16) : h.getLsbD 15 = decide (Half.sign h = 1) := by
  have := h.isLt
  rw [Half.sign_eq, BitVec.getLsbD, Nat.testBit_eq_decide_div_mod_eq]
  congr 1; apply propext; omega

end Sys2Proof.Machine
end

