-- ==== Sys2Proof/Laws/Expand.lean ====
section
/-! SUPPORT. `decode` as arithmetic on the fields of its operand, one lemma per branch of 41_decode.md R140. Proofs about
`decode` cite these and never unfold the listing. -/

namespace Sys2Proof.Machine

/-! ### Masks and shifts as arithmetic -/

theorem Codec.hSig_toNat (h : U16) : (Codec.hSig h).toNat = Half.sig h := by
  rw [Half.sig_eq, Codec.hSig, BitVec.toNat_and]
  exact Nat.and_two_pow_sub_one_eq_mod h.toNat 10

theorem Codec.hExp_toNat (h : U16) : (Codec.hExp h).toNat = Half.exp h * 2 ^ 10 := by
  have key : Codec.hExp h = (h.extractLsb' 10 5).setWidth 16 <<< 10 := by
    ext i hi
    simp only [Codec.hExp, Config.hExpMask]
    interval_cases i <;> simp
  have hle := Half.exp_le h
  rw [key, BitVec.toNat_shiftLeft, BitVec.toNat_setWidth]
  change (Half.exp h % 2 ^ 16) <<< 10 % 2 ^ 16 = _
  rw [Nat.shiftLeft_eq]; omega

theorem Codec.fSgn_toNat (h : U16) : (Codec.fSgn h).toNat = Half.sign h * 2 ^ 31 := by
  have key : h &&& Config.hSignMask = (h.extractLsb' 15 1).setWidth 16 <<< 15 := by
    ext i hi
    simp only [Config.hSignMask]
    interval_cases i <;> simp
  have hle := Half.sign_le h
  rw [Codec.fSgn, key, BitVec.toNat_shiftLeft, BitVec.toNat_setWidth, BitVec.toNat_shiftLeft, BitVec.toNat_setWidth]
  change ((Half.sign h % 2 ^ 16) <<< 15 % 2 ^ 16 % 2 ^ 32) <<< 16 % 2 ^ 32 = _
  rw [Nat.shiftLeft_eq, Nat.shiftLeft_eq]; omega

theorem Codec.magMask_toNat (h : U16) : (h &&& Config.hMagMask).toNat = Half.mag h := by
  rw [Half.mag_eq, BitVec.toNat_and]
  exact Nat.and_two_pow_sub_one_eq_mod h.toNat 15

theorem Codec.hExp_eq_zero_iff (h : U16) : Codec.hExp h = 0#16 ↔ Half.exp h = 0 := by
  rw [← BitVec.toNat_inj, Codec.hExp_toNat]
  simp only [BitVec.toNat_ofNat]; omega

theorem Codec.hExp_eq_mask_iff (h : U16) : Codec.hExp h = Config.hExpMask ↔ Half.exp h = 31 := by
  rw [← BitVec.toNat_inj, Codec.hExp_toNat]
  simp only [Config.hExpMask, BitVec.toNat_ofNat]; omega

theorem Codec.hSig_eq_zero_iff (h : U16) : Codec.hSig h = 0#16 ↔ Half.sig h = 0 := by
  rw [← BitVec.toNat_inj, Codec.hSig_toNat]; rfl

/-! ### The leading one -/

theorem Codec.msbFrom_spec (n : Nat) (v : U16) (h0 : 0 < v.toNat) (hv : v.toNat < 2 ^ (n + 1)) :
    2 ^ Codec.msbFrom n v ≤ v.toNat ∧ v.toNat < 2 ^ (Codec.msbFrom n v + 1) := by
  induction n with
  | zero => simp only [Codec.msbFrom]; omega
  | succ n ih =>
    have hbit : v.getLsbD (n + 1) = true ↔ 2 ^ (n + 1) ≤ v.toNat := by
      rw [BitVec.getLsbD, Nat.testBit_eq_decide_div_mod_eq, decide_eq_true_eq]
      have hpos := Nat.two_pow_pos (n + 1)
      have hlt : v.toNat / 2 ^ (n + 1) < 2 := by
        rw [Nat.div_lt_iff_lt_mul hpos, Nat.mul_comm, ← Nat.pow_succ]; exact hv
      rw [← Nat.one_le_div_iff hpos]
      generalize v.toNat / 2 ^ (n + 1) = q at hlt ⊢
      omega
    simp only [Codec.msbFrom, hbit]
    split
    · exact ⟨‹_›, hv⟩
    · exact ih (by omega)

/-- `msb v` is the one index `p` with `2^p ≤ v < 2^(p+1)` (00_scope.md R15). -/
theorem Codec.msb_spec {v : U16} (h0 : 0 < v.toNat) :
    2 ^ Codec.msb v ≤ v.toNat ∧ v.toNat < 2 ^ (Codec.msb v + 1) :=
  Codec.msbFrom_spec 15 v h0 v.isLt

theorem Codec.msb_unique {v : U16} {p : Nat} (h1 : 2 ^ p ≤ v.toNat) (h2 : v.toNat < 2 ^ (p + 1)) : Codec.msb v = p := by
  obtain ⟨h3, h4⟩ := Codec.msb_spec (v := v) (Nat.lt_of_lt_of_le (Nat.two_pow_pos p) h1)
  have h5 := (Nat.pow_lt_pow_iff_right (by omega : 1 < 2)).mp (Nat.lt_of_le_of_lt h3 h2)
  have h6 := (Nat.pow_lt_pow_iff_right (by omega : 1 < 2)).mp (Nat.lt_of_le_of_lt h1 h4)
  omega

/-! ### The branches -/

/-- R143, closed form: exponent field `103 + p`, the leading one dropped. -/
theorem Codec.subnormalMagnitude_toNat {sig : U16} {p : Nat} (h1 : 2 ^ p ≤ sig.toNat) (h2 : sig.toNat < 2 ^ (p + 1))
    (hlt : sig.toNat < 2 ^ 10) :
    (Codec.subnormalMagnitude sig).toNat = (103 + p) * 2 ^ 23 + (sig.toNat * 2 ^ (10 - p) - 2 ^ 10) * 2 ^ 13 := by
  have hp : p < 10 := (Nat.pow_lt_pow_iff_right (by omega : 1 < 2)).mp (Nat.lt_of_le_of_lt h1 hlt)
  have hm1 : 2 ^ 10 ≤ sig.toNat * 2 ^ (10 - p) := by
    calc 2 ^ 10 = 2 ^ p * 2 ^ (10 - p) := by rw [← Nat.pow_add]; congr 1; omega
      _ ≤ _ := Nat.mul_le_mul_right _ h1
  have hm2 : sig.toNat * 2 ^ (10 - p) < 2 ^ 11 := by
    calc sig.toNat * 2 ^ (10 - p) < 2 ^ (p + 1) * 2 ^ (10 - p) := Nat.mul_lt_mul_of_pos_right h2 (Nat.two_pow_pos _)
      _ = 2 ^ 11 := by rw [← Nat.pow_add]; congr 1; omega
  have hmask : (sig <<< (10 - p) &&& Config.hSigMask).toNat = sig.toNat * 2 ^ (10 - p) - 2 ^ 10 := by
    have h3 := Codec.hSig_toNat (sig <<< (10 - p))
    rw [Half.sig_eq, BitVec.toNat_shiftLeft, Nat.shiftLeft_eq] at h3
    rw [← Codec.hSig, h3]; omega
  simp only [Codec.subnormalMagnitude, Codec.msb_unique h1 h2]
  rw [BitVec.toNat_add, BitVec.toNat_shiftLeft, BitVec.toNat_shiftLeft, BitVec.toNat_setWidth, hmask, BitVec.toNat_ofNat,
    Nat.shiftLeft_eq, Nat.shiftLeft_eq]
  omega

/-- R142. -/
theorem Codec.decode_zero {h : U16} (he : Half.exp h = 0) (hs : Half.sig h = 0) :
    (Codec.decode h).toNat = Half.sign h * 2 ^ 31 := by
  simp only [Codec.decode, Codec.hExp_eq_zero_iff, Codec.hSig_eq_zero_iff]
  rw [if_pos he, if_pos hs, Codec.fSgn_toNat]

/-- R143. -/
theorem Codec.decode_subnormal {h : U16} {p : Nat} (he : Half.exp h = 0) (h1 : 2 ^ p ≤ Half.sig h)
    (h2 : Half.sig h < 2 ^ (p + 1)) :
    (Codec.decode h).toNat =
      Half.sign h * 2 ^ 31 + (103 + p) * 2 ^ 23 + (Half.sig h * 2 ^ (10 - p) - 2 ^ 10) * 2 ^ 13 := by
  have hsg := Half.sign_le h
  have hlt := Half.sig_lt h
  have hp : p < 10 := (Nat.pow_lt_pow_iff_right (by omega : 1 < 2)).mp (Nat.lt_of_le_of_lt h1 hlt)
  have hpos := Nat.two_pow_pos p
  have hm2 : Half.sig h * 2 ^ (10 - p) < 2 ^ 11 := by
    calc Half.sig h * 2 ^ (10 - p) < 2 ^ (p + 1) * 2 ^ (10 - p) := Nat.mul_lt_mul_of_pos_right h2 (Nat.two_pow_pos _)
      _ = 2 ^ 11 := by rw [← Nat.pow_add]; congr 1; omega
  simp only [Codec.decode, Codec.hExp_eq_zero_iff, Codec.hSig_eq_zero_iff]
  rw [if_pos he, if_neg (by omega), BitVec.toNat_add, Codec.fSgn_toNat,
    Codec.subnormalMagnitude_toNat (p := p) (by rw [Codec.hSig_toNat]; exact h1) (by rw [Codec.hSig_toNat]; exact h2)
      (by rw [Codec.hSig_toNat]; exact hlt), Codec.hSig_toNat]
  omega

/-- R144. -/
theorem Codec.decode_infinity_nan {h : U16} (he : Half.exp h = 31) :
    (Codec.decode h).toNat = Half.sign h * 2 ^ 31 + 0x7f800000 + Half.sig h * 2 ^ 13 := by
  have hsg := Half.sign_le h
  have hlt := Half.sig_lt h
  simp only [Codec.decode, Codec.hExp_eq_zero_iff, Codec.hExp_eq_mask_iff]
  rw [if_neg (by omega), if_pos he, BitVec.toNat_add, BitVec.toNat_add, Codec.fSgn_toNat, BitVec.toNat_shiftLeft,
    BitVec.toNat_setWidth, Codec.hSig_toNat, Nat.shiftLeft_eq]
  simp only [Config.fExpMask, BitVec.toNat_ofNat]
  omega

/-- R145. -/
theorem Codec.decode_normal {h : U16} (h1 : 1 ≤ Half.exp h) (h2 : Half.exp h ≤ 30) :
    (Codec.decode h).toNat = Half.sign h * 2 ^ 31 + (Half.mag h + 0x1c000) * 2 ^ 13 := by
  have hsg := Half.sign_le h
  have hlt := Half.sig_lt h
  have hmag := Half.mag_fields h
  simp only [Codec.decode, Codec.hExp_eq_zero_iff, Codec.hExp_eq_mask_iff]
  rw [if_neg (by omega), if_neg (by omega), BitVec.toNat_add, Codec.fSgn_toNat, BitVec.toNat_shiftLeft,
    BitVec.toNat_add, BitVec.toNat_setWidth, Codec.magMask_toNat, Nat.shiftLeft_eq]
  simp only [Config.rebiasDec, BitVec.toNat_ofNat]
  omega

/-- A nonzero significand field has a leading one below bit 10. -/
theorem Half.exists_leading_one {h : U16} (hs : Half.sig h ≠ 0) :
    ∃ p, p ≤ 9 ∧ 2 ^ p ≤ Half.sig h ∧ Half.sig h < 2 ^ (p + 1) := by
  have hlt := Half.sig_lt h
  have h0 : 0 < (Codec.hSig h).toNat := by rw [Codec.hSig_toNat]; omega
  obtain ⟨h1, h2⟩ := Codec.msb_spec h0
  rw [Codec.hSig_toNat] at h1 h2
  have hp := (Nat.pow_lt_pow_iff_right (by omega : 1 < 2)).mp (Nat.lt_of_le_of_lt h1 hlt)
  exact ⟨_, by omega, h1, h2⟩

end Sys2Proof.Machine
end

