-- ==== Sys2Proof/Laws/Classify.lean ====
section
/-! SUPPORT. The three predicates as tests on the fields of R61 (42_classify.md R160 to R162). -/

namespace Sys2Proof.Machine

@[simp] theorem predicateBit_eq_one_iff (b : Bool) : predicateBit b = 1#1 ↔ b = true := by
  cases b <;> simp [predicateBit]

/-- The result word of a predicate is 1 or 0 (30_encoding.md R75). -/
theorem resOfBit_predicateBit (b : Bool) : resOfBit (predicateBit b) = if b then 1#32 else 0#32 := by
  cases b <;> rfl

theorem Codec.magMask_eq_inf_iff (h : U16) : h &&& Config.hMagMask = Config.hExpMask ↔ Half.mag h = 0x7c00 := by
  rw [← BitVec.toNat_inj, Codec.magMask_toNat]; rfl

theorem Codec.isNaN_iff (h : U16) : Codec.isNaN h = 1#1 ↔ Half.exp h = 31 ∧ Half.sig h ≠ 0 := by
  rw [← Codec.hExp_eq_mask_iff, Ne, ← Codec.hSig_eq_zero_iff]
  simp [Codec.isNaN, Codec.hExp, Codec.hSig]

theorem Codec.isInf_iff (h : U16) : Codec.isInf h = 1#1 ↔ Half.mag h = 0x7c00 := by
  rw [← Codec.magMask_eq_inf_iff]
  simp [Codec.isInf]

theorem Codec.isFinite_iff (h : U16) : Codec.isFinite h = 1#1 ↔ Half.exp h ≠ 31 := by
  rw [Ne, ← Codec.hExp_eq_mask_iff]
  simp [Codec.isFinite, Codec.hExp]

end Sys2Proof.Machine
end

