-- ==== Sys2Proof/Laws/Convert.lean ====
section
/-! SUPPORT. `encodeBy` as arithmetic on the fields of its operand, one lemma per path of 40_encode.md R102, for both tie
rules. Proofs about `encode` cite these and never unfold the listing. -/

namespace Sys2Proof.Machine

/-! ### Masks and shifts as arithmetic -/

theorem Codec.fSig_toNat (f : U32) : (Codec.fSig f).toNat = Single.sig f := by
  rw [Single.sig_eq, Codec.fSig, BitVec.toNat_and]
  exact Nat.and_two_pow_sub_one_eq_mod f.toNat 23

theorem Codec.fExp_eq (f : U32) : Codec.fExp f = (f.extractLsb' 23 8).setWidth 32 <<< 23 := by
  ext i hi
  simp only [Codec.fExp, Config.fExpMask]
  interval_cases i <;> simp

theorem Codec.fExp_toNat (f : U32) : (Codec.fExp f).toNat = Single.exp f * 2 ^ 23 := by
  have h := Single.exp_le f
  rw [Codec.fExp_eq, BitVec.toNat_shiftLeft, BitVec.toNat_setWidth]
  change (Single.exp f % 2 ^ 32) <<< 23 % 2 ^ 32 = _
  rw [Nat.shiftLeft_eq]; omega

theorem Codec.hSgn_toNat (f : U32) : (Codec.hSgn f).toNat = Single.sign f * 2 ^ 15 := by
  have key : Codec.hSgn f = (f.extractLsb' 31 1).setWidth 16 <<< 15 := by
    ext i hi
    simp only [Codec.hSgn, Config.fSignMask]
    interval_cases i <;> simp
  have h := Single.sign_le f
  rw [key, BitVec.toNat_shiftLeft, BitVec.toNat_setWidth]
  change (Single.sign f % 2 ^ 16) <<< 15 % 2 ^ 16 = _
  rw [Nat.shiftLeft_eq]; omega

/-! ### The rounding step -/

/-- The rounding step on numbers: `S` loses its `k` low bits (40_encode.md R113, R121). -/
def roundNat (t : Config.TieRule) (S k : Nat) : Nat :=
  match t with
  | .bias => S / 2 ^ k + if 2 ^ (k - 1) ≤ S % 2 ^ k then 1 else 0
  | .even =>
    S / 2 ^ k + if 2 ^ (k - 1) < S % 2 ^ k ∨ (S % 2 ^ k = 2 ^ (k - 1) ∧ S / 2 ^ k % 2 = 1) then 1 else 0

/-- Adding half a unit and truncating is quotient plus remainder test; the truncating first shift loses nothing. -/
theorem biased_shift_eq (S a : Nat) :
    (S / 2 ^ a + 2 ^ 12) / 2 ^ 13 = roundNat .bias S (a + 13) := by
  have hp : 2 ^ (a + 13) = 2 ^ a * 2 ^ 13 := Nat.pow_add ..
  have hq : 2 ^ (a + 13 - 1) = 2 ^ a * 2 ^ 12 := by rw [show a + 13 - 1 = a + 12 by omega, Nat.pow_add]
  simp only [roundNat, hp, hq]
  rw [← Nat.div_div_eq_div_mul, Nat.mod_mul]
  have hpos : 0 < 2 ^ a := Nat.two_pow_pos a
  have hlt : S % 2 ^ a < 2 ^ a := Nat.mod_lt _ hpos
  generalize S / 2 ^ a = q at *
  generalize S % 2 ^ a = r at *
  have hiff : 2 ^ a * 2 ^ 12 ≤ r + 2 ^ a * (q % 2 ^ 13) ↔ 2 ^ 12 ≤ q % 2 ^ 13 := by
    generalize 2 ^ a = m at *
    constructor
    · intro h
      by_contra hc
      have : m * (q % 2 ^ 13 + 1) ≤ m * 2 ^ 12 := Nat.mul_le_mul_left m (by omega)
      rw [Nat.mul_add] at this; omega
    · intro h
      have := Nat.mul_le_mul_left m h
      omega
  simp only [hiff]
  split <;> omega

theorem Codec.roundByBias_toNat {S : U32} (hS : S.toNat < 2 ^ 24) (a : Nat) :
    (Codec.roundByBias S a).toNat = roundNat .bias S.toNat (a + 13) := by
  have h : S.toNat / 2 ^ a ≤ S.toNat := Nat.div_le_self ..
  rw [← biased_shift_eq]
  simp only [Codec.roundByBias, Config.roundBias, Config.sigShift, BitVec.toNat_ushiftRight, BitVec.toNat_add,
    BitVec.toNat_ofNat, Nat.shiftRight_eq_div_pow]
  rw [Nat.mod_eq_of_lt (by omega)]
  rfl

theorem toNat_low_bits {S : U32} {k : Nat} (hk : k < 32) :
    (S &&& ((1#32 <<< k) - 1#32)).toNat = S.toNat % 2 ^ k := by
  have h1 : 2 ^ k < 2 ^ 32 := Nat.pow_lt_pow_right (by omega) hk
  have h0 : 0 < 2 ^ k := Nat.two_pow_pos k
  rw [BitVec.toNat_and]
  have : ((1#32 <<< k) - 1#32).toNat = 2 ^ k - 1 := by
    rw [BitVec.toNat_sub, BitVec.toNat_shiftLeft]
    simp only [BitVec.toNat_ofNat, Nat.shiftLeft_eq]
    omega
  rw [this, Nat.and_two_pow_sub_one_eq_mod]

theorem toNat_one_shiftLeft {k : Nat} (hk : k < 32) : (1#32 <<< k).toNat = 2 ^ k := by
  have h1 : 2 ^ k < 2 ^ 32 := Nat.pow_lt_pow_right (by omega) hk
  rw [BitVec.toNat_shiftLeft]
  simp only [BitVec.toNat_ofNat, Nat.shiftLeft_eq]
  omega

theorem Codec.roundByEven_toNat {S : U32} (hS : S.toNat < 2 ^ 24) {a : Nat} (ha : a ≤ 11) :
    (Codec.roundByEven S a).toNat = roundNat .even S.toNat (a + 13) := by
  have hk : a + 13 < 32 := by omega
  have hk' : a + 13 - 1 < 32 := by omega
  have hdiv : S.toNat / 2 ^ (a + 13) ≤ S.toNat := Nat.div_le_self ..
  have hbit : (S >>> (a + 13)).getLsbD 0 = decide (S.toNat / 2 ^ (a + 13) % 2 = 1) := by
    rw [BitVec.getLsbD, BitVec.toNat_ushiftRight, Nat.shiftRight_eq_div_pow, Nat.testBit_zero]
  simp only [Codec.roundByEven, Config.sigShift, roundNat]
  simp only [GT.gt, BitVec.lt_def, ← BitVec.toNat_inj, toNat_low_bits hk, toNat_one_shiftLeft hk', hbit, decide_eq_true_eq]
  split
  · rw [BitVec.toNat_add, BitVec.toNat_ushiftRight, Nat.shiftRight_eq_div_pow]
    exact Nat.mod_eq_of_lt (Nat.lt_of_le_of_lt (Nat.add_le_add_right hdiv 1) (by omega))
  · rw [BitVec.toNat_ushiftRight, Nat.shiftRight_eq_div_pow]; rfl

/-- The rounded significand is at most one more than the quotient. -/
theorem roundNat_le (t : Config.TieRule) (S k : Nat) : roundNat t S k ≤ S / 2 ^ k + 1 := by
  cases t <;> simp only [roundNat] <;> split <;> omega

theorem le_roundNat (t : Config.TieRule) (S k : Nat) : S / 2 ^ k ≤ roundNat t S k := by
  cases t <;> simp only [roundNat] <;> omega

theorem Codec.roundSig_toNat (t : Config.TieRule) {S : U32} (hS : S.toNat < 2 ^ 24) {a : Nat} (ha : a ≤ 11) :
    (Codec.roundSig t S a).toNat = roundNat t S.toNat (a + 13) := by
  have hle := roundNat_le t S.toNat (a + 13)
  have hdiv : S.toNat / 2 ^ (a + 13) ≤ S.toNat / 2 ^ 13 :=
    Nat.div_le_div_left (Nat.pow_le_pow_right (by omega) (by omega)) (Nat.two_pow_pos 13)
  cases t
  · rw [Codec.roundSig, BitVec.toNat_setWidth, Codec.roundByBias_toNat hS]; omega
  · rw [Codec.roundSig, BitVec.toNat_setWidth, Codec.roundByEven_toNat hS ha]; omega

/-! ### The paths -/

theorem Codec.nanMagnitude_toNat (f : U32) :
    (Codec.nanMagnitude (Codec.fSig f)).toNat =
      0x7c00 + if Single.sig f / 2 ^ 13 = 0 then 1 else Single.sig f / 2 ^ 13 := by
  have hs := Single.sig_lt f
  have hadd : (Config.hExpMask + trunc16 (Codec.fSig f >>> Config.sigShift)).toNat = 0x7c00 + Single.sig f / 2 ^ 13 := by
    rw [BitVec.toNat_add, BitVec.toNat_setWidth, BitVec.toNat_ushiftRight, Codec.fSig_toNat, Nat.shiftRight_eq_div_pow]
    simp only [Config.hExpMask, Config.sigShift, BitVec.toNat_ofNat]
    omega
  have hiff : (Config.hExpMask + trunc16 (Codec.fSig f >>> Config.sigShift) = Config.hExpMask) ↔ Single.sig f / 2 ^ 13 = 0 := by
    rw [← BitVec.toNat_inj, hadd]
    simp only [Config.hExpMask, BitVec.toNat_ofNat]
    omega
  simp only [Codec.nanMagnitude, hiff]
  split
  · rfl
  · exact hadd

/-- The tests of the listing are tests on the exponent field value (R102). -/
theorem Codec.ovfExp_le_iff (f : U32) : Codec.fExp f ≥ Config.ovfExp ↔ 143 ≤ Single.exp f := by
  rw [ge_iff_le, BitVec.le_def, Codec.fExp_toNat]
  simp only [Config.ovfExp, BitVec.toNat_ofNat]; omega

theorem Codec.fExp_eq_mask_iff (f : U32) : Codec.fExp f = Config.fExpMask ↔ Single.exp f = 255 := by
  rw [← BitVec.toNat_inj, Codec.fExp_toNat]
  simp only [Config.fExpMask, BitVec.toNat_ofNat]; omega

theorem Codec.fExp_le_sub_iff (f : U32) : Codec.fExp f ≤ Config.subExp ↔ Single.exp f ≤ 112 := by
  rw [BitVec.le_def, Codec.fExp_toNat]
  simp only [Config.subExp, BitVec.toNat_ofNat]; omega

theorem Codec.fExp_lt_zero_iff (f : U32) : Codec.fExp f < Config.zeroExp ↔ Single.exp f < 102 := by
  rw [BitVec.lt_def, Codec.fExp_toNat]
  simp only [Config.zeroExp, BitVec.toNat_ofNat]; omega

theorem Codec.fSig_ne_zero_iff (f : U32) : Codec.fSig f ≠ 0#32 ↔ Single.sig f ≠ 0 := by
  rw [Ne, ← BitVec.toNat_inj, Codec.fSig_toNat]; rfl

/-- R104. -/
theorem Codec.encodeBy_nan (t : Config.TieRule) {f : U32} (he : Single.exp f = 255) (hs : Single.sig f ≠ 0) :
    (Codec.encodeBy t f).toNat =
      Single.sign f * 2 ^ 15 + (0x7c00 + if Single.sig f / 2 ^ 13 = 0 then 1 else Single.sig f / 2 ^ 13) := by
  have h1 := Single.sign_le f
  have h2 := Single.sig_lt f
  simp only [Codec.encodeBy, Codec.ovfExp_le_iff, Codec.fExp_eq_mask_iff, Codec.fSig_ne_zero_iff]
  rw [if_pos (by omega), if_pos he, if_pos hs, BitVec.toNat_add, Codec.hSgn_toNat, Codec.nanMagnitude_toNat]
  split <;> omega

/-- R105 and R106: an infinity, and every finite magnitude from 2^16. -/
theorem Codec.encodeBy_overflow (t : Config.TieRule) {f : U32} (he : 143 ≤ Single.exp f)
    (hs : Single.exp f = 255 → Single.sig f = 0) :
    (Codec.encodeBy t f).toNat = Single.sign f * 2 ^ 15 + 0x7c00 := by
  have h1 := Single.sign_le f
  have key : Codec.encodeBy t f = Codec.hSgn f + Config.hExpMask := by
    simp only [Codec.encodeBy, Codec.ovfExp_le_iff, Codec.fExp_eq_mask_iff, Codec.fSig_ne_zero_iff]
    rw [if_pos he]
    split
    · rename_i h
      rw [if_neg (by simp [hs h])]
    · rfl
  rw [key, BitVec.toNat_add, Codec.hSgn_toNat]
  simp only [Config.hExpMask, BitVec.toNat_ofNat]
  omega

/-- R107. -/
theorem Codec.encodeBy_zero (t : Config.TieRule) {f : U32} (he : Single.exp f ≤ 101) :
    (Codec.encodeBy t f).toNat = Single.sign f * 2 ^ 15 := by
  simp only [Codec.encodeBy, Codec.ovfExp_le_iff, Codec.fExp_le_sub_iff, Codec.fExp_lt_zero_iff]
  rw [if_neg (by omega), if_pos (by omega), if_pos (by omega), Codec.hSgn_toNat]

/-- R108, R113: the subnormal path. -/
theorem Codec.encodeBy_subnormal (t : Config.TieRule) {f : U32} (h1 : 102 ≤ Single.exp f) (h2 : Single.exp f ≤ 112) :
    (Codec.encodeBy t f).toNat =
      Single.sign f * 2 ^ 15 + roundNat t (2 ^ 23 + Single.sig f) (126 - Single.exp f) := by
  have hsg := Single.sign_le f
  have hs := Single.sig_lt f
  have hS : (Config.fImplicitOne + Codec.fSig f).toNat = 2 ^ 23 + Single.sig f := by
    rw [BitVec.toNat_add, Codec.fSig_toNat]
    simp only [Config.fImplicitOne, BitVec.toNat_ofNat]; omega
  have he : (Codec.fExp f >>> Config.fSigBits).toNat = Single.exp f := by
    rw [BitVec.toNat_ushiftRight, Codec.fExp_toNat, Nat.shiftRight_eq_div_pow]
    exact Nat.mul_div_cancel _ (Nat.two_pow_pos 23)
  have hr := roundNat_le t (2 ^ 23 + Single.sig f) (126 - Single.exp f)
  have hdiv : (2 ^ 23 + Single.sig f) / 2 ^ (126 - Single.exp f) ≤ (2 ^ 23 + Single.sig f) / 2 ^ 14 :=
    Nat.div_le_div_left (Nat.pow_le_pow_right (by omega) (by omega)) (Nat.two_pow_pos 14)
  simp only [Codec.encodeBy, Codec.ovfExp_le_iff, Codec.fExp_le_sub_iff, Codec.fExp_lt_zero_iff]
  rw [if_neg (by omega), if_pos (by omega), if_neg (by omega), BitVec.toNat_add, Codec.hSgn_toNat, Codec.subnormalSig,
    Codec.roundSig_toNat t (by omega) (by rw [he]; simp only [Config.subShiftBase]; omega), hS, he,
    show Config.subShiftBase - Single.exp f + 13 = 126 - Single.exp f by simp only [Config.subShiftBase]; omega]
  omega

/-- R109, R113: the regular case. -/
theorem Codec.encodeBy_regular (t : Config.TieRule) {f : U32} (h1 : 113 ≤ Single.exp f) (h2 : Single.exp f ≤ 142) :
    (Codec.encodeBy t f).toNat =
      Single.sign f * 2 ^ 15 + (Single.exp f - 112) * 2 ^ 10 + roundNat t (Single.sig f) 13 := by
  have hsg := Single.sign_le f
  have hs := Single.sig_lt f
  have he : (Codec.regularExp f).toNat = (Single.exp f - 112) * 2 ^ 10 := by
    rw [Codec.regularExp, BitVec.toNat_setWidth, BitVec.toNat_ushiftRight, BitVec.toNat_sub, Codec.fExp_toNat,
      Nat.shiftRight_eq_div_pow]
    simp only [Config.subExp, Config.sigShift, BitVec.toNat_ofNat]; omega
  have hr := roundNat_le t (Single.sig f) 13
  simp only [Codec.encodeBy, Codec.ovfExp_le_iff, Codec.fExp_le_sub_iff]
  rw [if_neg (by omega), if_neg (by omega), BitVec.toNat_add, BitVec.toNat_add, Codec.hSgn_toNat, he,
    Codec.roundSig_toNat t (by rw [Codec.fSig_toNat]; omega) (by omega), Codec.fSig_toNat, Nat.zero_add]
  omega

end Sys2Proof.Machine
end

