-- ==== Sys2Proof/Laws/Decode.lean ====
section
/-! SUPPORT. The fields of a command word as arithmetic on its number, joining and splitting a word, and what the decoder
answers on each operation number (30_encoding.md R72 to R76). -/

namespace Sys2Proof

theorem Command.half_of_zext (op : OpNum) (h : U16) : Command.half { op := op, arg := zext32 h } = h := by
  apply BitVec.eq_of_toNat_eq
  have := h.isLt
  simp only [Command.half, BitVec.extractLsb'_toNat, BitVec.toNat_setWidth, Nat.shiftRight_zero]
  omega

theorem Command.operandFits_of_zext (op : OpNum) (h : U16) :
    Command.operandFits { op := op, arg := zext32 h } = true := by
  have hz : (zext32 h).extractLsb' 16 16 = 0#16 := by
    apply BitVec.eq_of_toNat_eq
    have := h.isLt
    simp only [BitVec.extractLsb'_toNat, BitVec.toNat_setWidth, Nat.shiftRight_eq_div_pow, BitVec.toNat_ofNat]
    omega
  simp [Command.operandFits, hz]

theorem CmdWord.op_toNat (c : CmdWord) : (CmdWord.command c).op.toNat = c.toNat / 2 ^ 32 := by
  have := c.isLt
  simp only [CmdWord.command, BitVec.extractLsb'_toNat, Nat.shiftRight_eq_div_pow]
  omega

theorem CmdWord.arg_toNat (c : CmdWord) : (CmdWord.command c).arg.toNat = c.toNat % 2 ^ 32 := by
  simp only [CmdWord.command, BitVec.extractLsb'_toNat, Nat.shiftRight_zero]

theorem Command.word_toNat (c : Command) : c.word.toNat = c.op.toNat * 2 ^ 32 + c.arg.toNat := by
  rw [Command.word, BitVec.toNat_append, Nat.shiftLeft_eq, Nat.mul_comm, Nat.two_pow_add_eq_or_of_lt c.arg.isLt]

/-- Splitting a joined word gives the fields back. -/
@[simp] theorem CmdWord.command_word (c : Command) : CmdWord.command c.word = c := by
  have hop : (CmdWord.command c.word).op = c.op := by
    apply BitVec.eq_of_toNat_eq
    have := c.arg.isLt
    rw [CmdWord.op_toNat, Command.word_toNat]; omega
  have harg : (CmdWord.command c.word).arg = c.arg := by
    apply BitVec.eq_of_toNat_eq
    have := c.arg.isLt
    rw [CmdWord.arg_toNat, Command.word_toNat]; omega
  cases c
  exact congrArg₂ Command.mk hop harg

/-- Joining a split word gives the word back. -/
@[simp] theorem Command.word_command (c : CmdWord) : (CmdWord.command c).word = c := by
  apply BitVec.eq_of_toNat_eq
  rw [Command.word_toNat, CmdWord.op_toNat, CmdWord.arg_toNat]; omega

/-- `arg[31:16]` as arithmetic on the word. -/
theorem CmdWord.high_eq_zero_iff (c : CmdWord) :
    (CmdWord.command c).arg.extractLsb' 16 16 = 0#16 ↔ c.toNat / 2 ^ 16 % 2 ^ 16 = 0 := by
  rw [← BitVec.toNat_inj, BitVec.extractLsb'_toNat, CmdWord.arg_toNat, Nat.shiftRight_eq_div_pow, BitVec.toNat_ofNat]
  omega

/-- Everything the decoder can answer. -/
theorem decodeCommand_cases (c : Command) :
    (c.op = 0#3 ∧ decodeCommand c = .ok (.encode c.arg)) ∨
    (c.opAssigned = false ∧ decodeCommand c = .error .opReserved) ∨
    (c.op ≠ 0#3 ∧ c.opAssigned = true ∧ c.operandFits = false ∧ decodeCommand c = .error .operandHighBitsSet) ∨
    (c.operandFits = true ∧
      ((c.op = 1#3 ∧ decodeCommand c = .ok (.decode c.half)) ∨
       (c.op = 2#3 ∧ decodeCommand c = .ok (.isNaN c.half)) ∨
       (c.op = 3#3 ∧ decodeCommand c = .ok (.isInf c.half)) ∨
       (c.op = 4#3 ∧ decodeCommand c = .ok (.isFinite c.half)))) := by
  obtain ⟨op, arg⟩ := c
  have hop : op = 0#3 ∨ op = 1#3 ∨ op = 2#3 ∨ op = 3#3 ∨ op = 4#3 ∨ op = 5#3 ∨ op = 6#3 ∨ op = 7#3 := by
    revert op; decide
  cases hf : Command.operandFits { op := op, arg := arg } <;>
    rcases hop with rfl | rfl | rfl | rfl | rfl | rfl | rfl | rfl <;>
    simp [decodeCommand, Command.opAssigned, hf]

/-- A command is well formed exactly when it decodes (R76). -/
theorem Command.wf_iff_decodes (c : Command) : c.wf = true ↔ ∃ i, decodeCommand c = .ok i := by
  rcases decodeCommand_cases c with ⟨h, hd⟩ | ⟨h, hd⟩ | ⟨h0, h1, h2, hd⟩ | ⟨hf, ⟨h, hd⟩ | ⟨h, hd⟩ | ⟨h, hd⟩ | ⟨h, hd⟩⟩ <;>
    simp_all [Command.wf, Command.opAssigned, Command.operandFits]

end Sys2Proof
end

