-- ==== Sys2Proof/Laws/PerInstr.lean ====
section
/-! SUPPORT. Families of lemmas with one lemma per constructor of `Instr`. -/

namespace Sys2Proof.Laws.LegalWord

/-- The command word of every instruction is well formed: no assembly line gives a reserved word (30_encoding.md R76, R80). -/
def Statement (i : Instr) : Prop := (CmdWord.command (encodeInstr i)).wf = true

theorem of_half {op : OpNum} (hop : op.toNat ≤ 4) (h : U16) : Command.wf { op := op, arg := zext32 h } = true := by
  simp [Command.wf, Command.opAssigned, Command.operandFits_of_zext, hop]

theorem encode (f : U32) : Statement (.encode f) := by
  rw [Statement, encodeInstr, CmdWord.command_word]; rfl

theorem toHalf (f : U32) : Statement (.toHalf f) := by
  rw [Statement, encodeInstr, CmdWord.command_word]; rfl

theorem decode (h : U16) : Statement (.decode h) := by
  rw [Statement, encodeInstr, CmdWord.command_word]; exact of_half (by decide) h

theorem toFloat (h : U16) : Statement (.toFloat h) := by
  rw [Statement, encodeInstr, CmdWord.command_word]; exact of_half (by decide) h

theorem isNaN (h : U16) : Statement (.isNaN h) := by
  rw [Statement, encodeInstr, CmdWord.command_word]; exact of_half (by decide) h

theorem isInf (h : U16) : Statement (.isInf h) := by
  rw [Statement, encodeInstr, CmdWord.command_word]; exact of_half (by decide) h

theorem isFinite (h : U16) : Statement (.isFinite h) := by
  rw [Statement, encodeInstr, CmdWord.command_word]; exact of_half (by decide) h

end Sys2Proof.Laws.LegalWord
end

