-- ==== Sys2Proof/Laws/State.lean ====
section
/-! SUPPORT. One lemma per field per update of `State`, and what each shared operation of Machine/Ops.lean can do. -/

namespace Sys2Proof.Machine

@[simp] theorem State.emit_pending (s : State) (r : U32) : (s.emit r).pending = s.pending := rfl
@[simp] theorem State.emit_results (s : State) (r : U32) : (s.emit r).results = s.results ++ [r] := rfl
@[simp] theorem State.present_pending (s : State) (c : CmdWord) : (s.present c).pending = c :: s.pending := rfl
@[simp] theorem State.present_results (s : State) (c : CmdWord) : (s.present c).results = s.results := rfl
@[simp] theorem State.reset_pending : State.reset.pending = [] := rfl
@[simp] theorem State.reset_results : State.reset.results = [] := rfl

theorem State.nextWord_of_nil {s : State} (h : s.pending = []) : s.nextWord = none := by
  simp [State.nextWord, h]

theorem State.nextWord_of_cons {s : State} {c : CmdWord} {rest : List CmdWord} (h : s.pending = c :: rest) :
    s.nextWord = some (c, { s with pending := rest }) := by
  simp [State.nextWord, h]

/-- Presenting a word and taking the next one gives that word and the state before. -/
@[simp] theorem State.nextWord_present (s : State) (c : CmdWord) : (s.present c).nextWord = some (c, s) := rfl

/-- `complete` answers next, with the result read and nothing else changed. -/
theorem complete_eq (s : State) (r : U32) :
    complete s r = .next { s with results := s.results ++ [r] } := rfl

theorem complete_next {s t : State} {r : U32} (h : complete s r = .next t) : t = s.emit r := by
  cases h; rfl

theorem idle_next {s t : State} (h : idle s = .next t) : t = s := by
  cases h; rfl

end Sys2Proof.Machine
end

