-- ==== Sys2Proof/Laws/Step.lean ====
section
/-! SUPPORT. What `exec` and `step` can do, said once, and how the port `res` follows the decoder. -/

namespace Sys2Proof.Machine

/-- The result word of an instruction. -/
def resultOf : Instr → U32
  | .encode f => resOfHalf (Codec.encode f)
  | .toHalf f => resOfHalf (Codec.toHalf f)
  | .decode h => resOfSingle (Codec.decode h)
  | .toFloat h => resOfSingle (Codec.toFloat h)
  | .isNaN h => resOfBit (Codec.isNaN h)
  | .isInf h => resOfBit (Codec.isInf h)
  | .isFinite h => resOfBit (Codec.isFinite h)

/-- `exec` reads the instruction's result word and does nothing else. -/
theorem exec_eq (i : Instr) (s : State) : exec i s = .next (s.emit (resultOf i)) := by
  cases i <;> rfl

theorem resOfHalf_eq_ofNat (h : U16) : resOfHalf h = BitVec.ofNat 32 h.toNat := by
  apply BitVec.eq_of_toNat_eq
  simp [resOfHalf]

/-- `ENCODE` with its result word as a number, to be followed by a path lemma of Laws/Convert.lean. -/
theorem exec_encode_ofNat (f : U32) (s : State) :
    exec (.encode f) s = .next { s with results := s.results ++ [BitVec.ofNat 32 (Codec.encode f).toNat] } := by
  rw [← resOfHalf_eq_ofNat]; rfl

/-- `DECODE` with its result word as a number, to be followed by a branch lemma of Laws/Expand.lean. -/
theorem exec_decode_ofNat (h : U16) (s : State) :
    exec (.decode h) s = .next { s with results := s.results ++ [BitVec.ofNat 32 (Codec.decode h).toNat] } := by
  rw [BitVec.ofNat_toNat, BitVec.setWidth_eq]; rfl

/-- The port `res` shows the result word of the instruction its word decodes to, and nothing for a reserved word. -/
theorem resPort_eq (c : CmdWord) : resPort c = (decodeWord c).toOption.map resultOf := by
  rw [decodeWord, resPort]
  rcases decodeCommand_cases (CmdWord.command c) with
      ⟨h, hd⟩ | ⟨h, hd⟩ | ⟨h0, h1, h2, hd⟩ | ⟨hf, ⟨h, hd⟩ | ⟨h, hd⟩ | ⟨h, hd⟩ | ⟨h, hd⟩⟩ <;>
    rw [hd] <;>
    simp_all [Command.wf, Command.opAssigned, Command.operandFits, selectOutput, blockOutputs, wireInputs, resultOf,
      resOfHalf, resOfSingle, resOfBit, Except.toOption]

/-- Everything a step can do. -/
theorem step_cases (s : State) :
    (s.pending = [] ∧ step s = .next s) ∨
    (∃ c rest why, s.pending = c :: rest ∧ decodeWord c = .error why ∧ step s = .refused (.reservedWord why)) ∨
    (∃ c rest i, s.pending = c :: rest ∧ decodeWord c = .ok i ∧
      step s = .next { pending := rest, results := s.results ++ [resultOf i] }) := by
  cases hp : s.pending with
  | nil => exact .inl ⟨rfl, by simp only [step, State.nextWord_of_nil hp, idle]⟩
  | cons c rest =>
    cases hd : decodeWord c with
    | error why => exact .inr (.inl ⟨c, rest, why, rfl, hd, by simp only [step, State.nextWord_of_cons hp, hd]⟩)
    | ok i =>
      refine .inr (.inr ⟨c, rest, i, rfl, hd, ?_⟩)
      simp only [step, State.nextWord_of_cons hp, hd, exec_eq, State.emit]

/-- A step that answers next did nothing, or presented one word and read its result. -/
theorem step_next {s t : State} (h : step s = .next t) :
    (s.pending = [] ∧ t = s) ∨
    ∃ c rest i, s.pending = c :: rest ∧ decodeWord c = .ok i ∧
      t = { pending := rest, results := s.results ++ [resultOf i] } := by
  rcases step_cases s with ⟨hp, hs⟩ | ⟨c, rest, why, hp, hd, hs⟩ | ⟨c, rest, i, hp, hd, hs⟩
  · rw [hs] at h; cases h; exact .inl ⟨hp, rfl⟩
  · rw [hs] at h; cases h
  · rw [hs] at h; cases h; exact .inr ⟨c, rest, i, hp, hd, rfl⟩

/-- The host's word is the next one a step presents. -/
theorem withFetchWord_pending (s : State) (nbits w : Nat) :
    (s.withFetchWord nbits w).pending = BitVec.ofNat 35 (w % 2 ^ nbits) :: s.pending := rfl

end Sys2Proof.Machine
end

