-- ==== Sys2Proof/Laws/Value.lean ====
section
/-! SUPPORT. The value of a finite pattern as a whole number over a fixed power of two (30_encoding.md R64), so that statements
about values become statements about natural numbers. -/

namespace Sys2Proof.Machine

/-- The magnitude in units of the format's smallest subnormal. -/
def scaledMagnitude (p e m : Nat) : Nat := if e = 0 then m else (2 ^ p + m) * 2 ^ (e - 1)

theorem finiteValue_eq_scaled (p b s e m : Nat) (hb : 1 ≤ b) :
    finiteValue p b s e m = (-1) ^ s * ((scaledMagnitude p e m : ℚ) / 2 ^ (p + b - 1)) := by
  have h2 : (2 : ℚ) ≠ 0 := by norm_num
  obtain ⟨b', rfl⟩ : ∃ b', b = b' + 1 := ⟨b - 1, by omega⟩
  have hden : (2 : ℚ) ^ (p + (b' + 1) - 1) = 2 ^ p * 2 ^ b' := by
    rw [← pow_add]; congr 1
  have hunit : (2 : ℚ) ^ ((1 : ℤ) - ((b' + 1 : Nat) : ℤ)) = 1 / 2 ^ b' := by
    rw [show (1 : ℤ) - ((b' + 1 : Nat) : ℤ) = -(b' : ℤ) by push_cast; ring, zpow_neg, zpow_natCast, one_div]
  by_cases he : e = 0
  · simp only [finiteValue, scaledMagnitude, he, if_true, hden, hunit]
    field_simp
  · obtain ⟨e', rfl⟩ : ∃ e', e = e' + 1 := ⟨e - 1, by omega⟩
    have hscale : (2 : ℚ) ^ (((e' + 1 : Nat) : ℤ) - ((b' + 1 : Nat) : ℤ)) = 2 ^ e' / 2 ^ b' := by
      rw [show ((e' + 1 : Nat) : ℤ) - ((b' + 1 : Nat) : ℤ) = (e' : ℤ) - (b' : ℤ) by push_cast; ring, zpow_sub₀ h2,
        zpow_natCast, zpow_natCast]
    simp only [finiteValue, scaledMagnitude, he, if_false, hden, hscale, Nat.add_sub_cancel]
    push_cast
    field_simp

theorem abs_finiteValue (p b s e m : Nat) (hb : 1 ≤ b) :
    |finiteValue p b s e m| = (scaledMagnitude p e m : ℚ) / 2 ^ (p + b - 1) := by
  rw [finiteValue_eq_scaled p b s e m hb, abs_mul, abs_pow, abs_neg, abs_one, one_pow, one_mul]
  exact abs_of_nonneg (by positivity)

/-- The value of a finite single pattern in units of 2^-149. -/
theorem Single.value_eq {f : U32} (he : Single.exp f ≠ 255) :
    Single.value f = some ((-1) ^ Single.sign f * ((scaledMagnitude 23 (Single.exp f) (Single.sig f) : ℚ) / 2 ^ 149)) := by
  have hfin : (Single.fpClass f).finite = true := by
    simp only [Single.fpClass, classOf, he, if_false]
    split
    · split <;> rfl
    · rfl
  rw [Single.value, if_pos hfin, finiteValue_eq_scaled _ _ _ _ _ (by decide)]
  rfl

theorem Single.value_eq_none {f : U32} (he : Single.exp f = 255) : Single.value f = none := by
  have hfin : (Single.fpClass f).finite = false := by
    simp only [Single.fpClass, classOf, he]
    simp only [show ¬(255 = 0) by decide, if_false, if_true]
    split <;> rfl
  rw [Single.value, hfin]; rfl

/-- The value of a finite half pattern in units of 2^-24. -/
theorem Half.value_eq {h : U16} (he : Half.exp h ≠ 31) :
    Half.value h = some ((-1) ^ Half.sign h * ((scaledMagnitude 10 (Half.exp h) (Half.sig h) : ℚ) / 2 ^ 24)) := by
  have hfin : (Half.fpClass h).finite = true := by
    simp only [Half.fpClass, classOf, he, if_false]
    split
    · split <;> rfl
    · rfl
  rw [Half.value, if_pos hfin, finiteValue_eq_scaled _ _ _ _ _ (by decide)]
  rfl

theorem Half.value_eq_none {h : U16} (he : Half.exp h = 31) : Half.value h = none := by
  have hfin : (Half.fpClass h).finite = false := by
    simp only [Half.fpClass, classOf, he]
    simp only [show ¬(31 = 0) by decide, if_false, if_true]
    split <;> rfl
  rw [Half.value, hfin]; rfl

/-- A candidate magnitude in units of 2^-24. -/
theorem Half.candidate_eq (c : Nat) :
    Half.candidate c = (scaledMagnitude 10 (c / 2 ^ 10) (c % 2 ^ 10) : ℚ) / 2 ^ 24 := by
  rw [Half.candidate, finiteValue_eq_scaled _ _ _ _ _ (by decide), pow_zero, one_mul]
  rfl

end Sys2Proof.Machine
end

