-- ==== Sys2Proof/Tests/Slice0.lean ====
section
/-! SUPPORT. Tests of the model. Expected results are the spec's own: the worked examples and derived vectors of
95_test_vectors.md and the words of 30_encoding.md R73 written out from their fields. The `witness_` theorems show, for each statement
of Certificates/Slice0/Obligations.lean with hypotheses, operands that meet them, at the ends of the ranges. -/

namespace Sys2Proof.Tests

open Sys2Proof.Machine

/-! ### Well-formedness: an ill-formed term for each check, refused -/

theorem test_wf_refuses_reserved_op : Command.wf { op := 5#3, arg := 0#32 } = false := by decide
theorem test_opAssigned_boundary :
    Command.opAssigned { op := 4#3, arg := 0#32 } = true ∧ Command.opAssigned { op := 7#3, arg := 0#32 } = false := by decide
theorem test_wf_refuses_wide_operand : Command.wf { op := 1#3, arg := 0x00010000#32 } = false := by decide
theorem test_wf_accepts_wide_operand_of_encode : Command.wf { op := 0#3, arg := 0xffffffff#32 } = true := by decide
theorem test_instr_wf_refuses_pseudo_operations :
    (Instr.toHalf 0#32).wf = false ∧ (Instr.toFloat 0#16).wf = false ∧ (Instr.encode 0#32).wf = true := by decide

/-! ### Decoding words written out from R73: 3 bits of `op`, then `arg` -/

theorem test_word_encode :
    decodeWord 0b00000111111100000000000000000000000#35 = .ok (.encode 0x3f800000#32) := by decide
theorem test_word_decode :
    decodeWord 0b00100000000000000000011110000000000#35 = .ok (.decode 0x3c00#16) := by decide
theorem test_word_isNaN :
    decodeWord 0b01000000000000000000111111000000000#35 = .ok (.isNaN 0x7e00#16) := by decide
theorem test_word_isInf :
    decodeWord 0b01100000000000000001111110000000000#35 = .ok (.isInf 0xfc00#16) := by decide
theorem test_word_isFinite :
    decodeWord 0b10000000000000000000111101111111111#35 = .ok (.isFinite 0x7bff#16) := by decide
theorem test_word_operand_bits_set : decodeWord 0x100013c00#35 = .error .operandHighBitsSet := by decide
theorem test_word_last_op_operand_bits_set : decodeWord 0x4ffff0000#35 = .error .operandHighBitsSet := by decide
theorem test_word_reserved_ops :
    decodeWord 0x500000000#35 = .error .opReserved ∧ decodeWord 0x7ffffffff#35 = .error .opReserved := by decide
theorem test_words_of_aliases :
    encodeInstr (.toHalf 0x3f800000#32) = 0x03f800000#35 ∧ encodeInstr (.toFloat 0x3c00#16) = 0x100003c00#35 := by decide
theorem test_table_word : decodeTableWord 40 0x200007e00 = some (.isNaN 0x7e00#16) := by decide
theorem test_table_word_too_wide : decodeTableWord 40 0x800000000 = none := by decide

/-! ### One step from reset, the word presented by `withFetchWord` -/

/-- The results after one step on a word. -/
def resultsOfWord (w : Nat) : Option (List U32) :=
  match step (State.reset.withFetchWord 40 w) with
  | .next s => some s.results
  | .fault _ => none
  | .refused _ => none

/-- S1, and the counterexample of 90_conflicts.md C1. -/
theorem test_encode_step :
    resultsOfWord 0x03f800000 = some [0x00003c00#32] ∧ resultsOfWord 0x03f801000 = some [0x00003c01#32] := by decide

/-- Section 2: zero path, its strict end, the three carries, the last finite result, the NaN guard. -/
theorem test_encode_corners :
    Codec.encode 0xb2ffffff#32 = 0x8000#16 ∧ Codec.encode 0x33000000#32 = 0x0001#16 ∧
    Codec.encode 0x387fe000#32 = 0x0400#16 ∧ Codec.encode 0x3ffff000#32 = 0x4000#16 ∧
    Codec.encode 0xc77ff000#32 = 0xfc00#16 ∧ Codec.encode 0x477fefff#32 = 0x7bff#16 ∧
    Codec.encode 0xff801fff#32 = 0xfc01#16 := by decide

/-- Section 2, the column of the other tie rule. -/
theorem test_encode_even_ties :
    Codec.encodeBy .even 0x3f801000#32 = 0x3c00#16 ∧ Codec.encodeBy .even 0x34200000#32 = 0x0002#16 ∧
    Codec.encodeBy .even 0x34600000#32 = 0x0004#16 := by decide

/-- R120. -/
theorem test_toHalf_minus_one :
    exec (.toHalf 0xbf800000#32) State.reset = .next { pending := [], results := [0x0000bc00#32] } := rfl

/-- S2, and the uncounted first shift of 90_conflicts.md C5. -/
theorem test_decode_step :
    resultsOfWord 0x100003c00 = some [0x3f800000#32] ∧ resultsOfWord 0x100000200 = some [0x38000000#32] := by decide

/-- Section 3: smallest and largest subnormal, largest finite, signalling NaN. -/
theorem test_decode_corners :
    Codec.decode 0x8001#16 = 0xb3800000#32 ∧ Codec.decode 0x03ff#16 = 0x387fc000#32 ∧
    Codec.decode 0x7bff#16 = 0x477fe000#32 ∧ Codec.decode 0xfc01#16 = 0xff802000#32 := by decide

/-- R151. -/
theorem test_toFloat_minus_one :
    exec (.toFloat 0xbc00#16) State.reset = .next { pending := [], results := [0xbf800000#32] } := rfl

/-- Section 4. -/
theorem test_isNaN_step :
    resultsOfWord 0x200007c01 = some [1#32] ∧ resultsOfWord 0x20000fc00 = some [0#32] := by decide
theorem test_isInf_step :
    resultsOfWord 0x30000fc00 = some [1#32] ∧ resultsOfWord 0x300007c01 = some [0#32] := by decide
theorem test_isFinite_step :
    resultsOfWord 0x400000001 = some [1#32] ∧ resultsOfWord 0x400007e00 = some [0#32] := by decide

/-- P4, line 2. -/
theorem test_reserved_word_refused : resultsOfWord 0x100013c00 = none := by decide
theorem test_port_view : resPort 0x30000fc00#35 = some 1#32 ∧ resPort 0x500000000#35 = none := by decide

/-! ### Assembly -/

theorem test_assemble_line_with_comment :
    Asm.assemble "ISNAN 0x7e00   ; a NaN".toList = some 0x200007e00#35 := by decide
theorem test_assemble_wants_all_digits : Asm.assemble "ENCODE 0x3c00".toList = none := by decide
theorem test_disassemble_prints_primary : Asm.disassemble 0x03f800000#35 = some "ENCODE 0x3f800000".toList := by decide

/-! ### Witnesses: operands that meet the hypotheses of the statements -/

/-- A state with one legal and one reserved word to present. -/
def twoWords : State := { pending := [0x03f800000#35, 0x100013c00#35], results := [7#32] }

theorem witness_step_runs_decoded_word :
    twoWords.pending = 0x03f800000#35 :: [0x100013c00#35] ∧ decodeWord 0x03f800000#35 = .ok (.encode 0x3f800000#32) := by decide

theorem witness_step_refuses_exactly_reserved_words :
    ({ pending := [0x500000000#35], results := [] } : State).pending = 0x500000000#35 :: [] ∧
    5 ≤ (0x500000000#35).toNat / 2 ^ 32 ∧
    1 ≤ (0x100010000#35).toNat / 2 ^ 32 ∧ (0x4ffff0000#35).toNat / 2 ^ 32 ≤ 4 ∧
    (0x100010000#35).toNat / 2 ^ 16 % 2 ^ 16 ≠ 0 ∧
    (0x0ffffffff#35).toNat / 2 ^ 32 = 0 ∧
    ((0x40000ffff#35).toNat / 2 ^ 32 ≤ 4 ∧ (0x40000ffff#35).toNat / 2 ^ 16 % 2 ^ 16 = 0) := by decide

theorem witness_step_with_nothing_presented : ({ pending := [], results := [7#32] } : State).pending = [] := rfl

theorem witness_encode_of_decode_is_the_word : decodeWord 0x40000ffff#35 = .ok (.isFinite 0xffff#16) := by decide

theorem witness_decode_of_encode_is_canonical : (Instr.decode 0xffff#16).wf = true := rfl

theorem witness_opcode_table :
    (opTable.map (fun r => r.spells 0x40000ffff#35)) = [false, false, false, false, true] ∧
    (opTable.all (fun r => r.spells 0x400010000#35 == false)) = true := by decide

theorem witness_step_shows_the_selected_unit_output :
    twoWords.pending = 0x03f800000#35 :: [0x100013c00#35] ∧ resPort 0x03f800000#35 = some 0x00003c00#32 ∧
    resPort 0x100013c00#35 = none := by decide

theorem witness_run_is_the_list_of_results_or_refused :
    runWords [0x03f800000#35, 0x100003c00#35] = some [0x00003c00#32, 0x3f800000#32] ∧
    [0x03f800000#35, 0x100003c00#35].length ≤ 2 ∧ runWords [0x03f800000#35, 0x100013c00#35] = none := by decide

theorem witness_step_next : step twoWords = .next { pending := [0x100013c00#35], results := [7#32, 0x00003c00#32] } := rfl

theorem possible_encode_one : possibleResult 0x00003c00#32 = true := by decide

theorem witness_step_keeps_results_possible :
    ResultsPossible { pending := [0x100003c00#35], results := [0x00003c00#32] } ∧
    step { pending := [0x100003c00#35], results := [0x00003c00#32] } =
      .next { pending := [], results := [0x00003c00#32, 0x3f800000#32] } :=
  ⟨fun r hr => by rw [List.mem_singleton.mp hr]; exact possible_encode_one, rfl⟩

theorem witness_encode_nan :
    Single.exp 0x7f800001#32 = 255 ∧ Single.sig 0x7f800001#32 ≠ 0 ∧
    Single.exp 0xffffffff#32 = 255 ∧ Single.sig 0xffffffff#32 ≠ 0 := by decide

theorem witness_encode_infinity : Single.exp 0xff800000#32 = 255 ∧ Single.sig 0xff800000#32 = 0 := by decide

theorem witness_encode_finite_overflow : Single.exp 0x47800000#32 = 143 ∧ Single.exp 0xff7fffff#32 = 254 := by decide

theorem witness_encode_underflow : Single.exp 0x32ffffff#32 = 101 ∧ Single.exp 0x33000000#32 = 102 := by decide

theorem witness_encode_subnormal_path : Single.exp 0x33000000#32 = 102 ∧ Single.exp 0x387fffff#32 = 112 := by decide

theorem witness_encode_regular_case :
    Single.exp 0x38800000#32 = 113 ∧ Single.exp 0x477ff000#32 = 142 ∧ 0x007ff000 ≤ Single.sig 0x477ff000#32 := by decide

theorem witness_rounding_is_quotient_and_remainder : (0xffffff : Nat) < 2 ^ 24 ∧ 13 ≤ 24 := by decide

theorem witness_tie_rules_differ : Codec.encodeBy .bias 0x33000000#32 ≠ Codec.encodeBy .even 0x33000000#32 := by decide

theorem value_one : Single.value 0x3f800000#32 = some 1 := by
  rw [Single.value_eq (by decide), show Single.sign 0x3f800000#32 = 0 by decide,
    show Single.exp 0x3f800000#32 = 127 by decide, show Single.sig 0x3f800000#32 = 0 by decide]
  norm_num [scaledMagnitude]

theorem value_65520 : Single.value 0x477ff000#32 = some 65520 := by
  rw [Single.value_eq (by decide), show Single.sign 0x477ff000#32 = 0 by decide,
    show Single.exp 0x477ff000#32 = 142 by decide, show Single.sig 0x477ff000#32 = 0x7ff000 by decide]
  norm_num [scaledMagnitude]

theorem value_two_pow_neg_25 : Single.value 0x33000000#32 = some (2 ^ (-25 : ℤ)) := by
  rw [Single.value_eq (by decide), show Single.sign 0x33000000#32 = 0 by decide,
    show Single.exp 0x33000000#32 = 102 by decide, show Single.sig 0x33000000#32 = 0 by decide]
  norm_num [scaledMagnitude]

theorem value_zero : Single.value 0x00000000#32 = some 0 := by
  rw [Single.value_eq (by decide), show Single.sign 0x00000000#32 = 0 by decide,
    show Single.exp 0x00000000#32 = 0 by decide, show Single.sig 0x00000000#32 = 0 by decide]
  norm_num [scaledMagnitude]

theorem value_two_pow_neg_14 : Single.value 0x38800000#32 = some (2 ^ (-14 : ℤ)) := by
  rw [Single.value_eq (by decide), show Single.sign 0x38800000#32 = 0 by decide,
    show Single.exp 0x38800000#32 = 113 by decide, show Single.sig 0x38800000#32 = 0 by decide]
  norm_num [scaledMagnitude]

/-- 2^-14 - 2^-25, the first magnitude of the third row of R115. -/
theorem value_third_row : Single.value 0x387fe000#32 = some (2 ^ (-14 : ℤ) - 2 ^ (-25 : ℤ)) := by
  rw [Single.value_eq (by decide), show Single.sign 0x387fe000#32 = 0 by decide,
    show Single.exp 0x387fe000#32 = 112 by decide, show Single.sig 0x387fe000#32 = 0x7fe000 by decide]
  norm_num [scaledMagnitude]

/-- One value in each row of R115, at the row's lower end. -/
theorem witness_encode_result_by_magnitude_range :
    (Single.value 0x00000000#32 = some 0 ∧ |(0 : ℚ)| < 2 ^ (-25 : ℤ)) ∧
    (Single.value 0x33000000#32 = some (2 ^ (-25 : ℤ)) ∧ (2 : ℚ) ^ (-25 : ℤ) ≤ |(2 : ℚ) ^ (-25 : ℤ)| ∧
      |(2 : ℚ) ^ (-25 : ℤ)| < 2 ^ (-14 : ℤ) - 2 ^ (-25 : ℤ)) ∧
    (Single.value 0x387fe000#32 = some (2 ^ (-14 : ℤ) - 2 ^ (-25 : ℤ)) ∧
      (2 : ℚ) ^ (-14 : ℤ) - 2 ^ (-25 : ℤ) ≤ |(2 : ℚ) ^ (-14 : ℤ) - 2 ^ (-25 : ℤ)| ∧
      |(2 : ℚ) ^ (-14 : ℤ) - 2 ^ (-25 : ℤ)| < 2 ^ (-14 : ℤ)) ∧
    (Single.value 0x38800000#32 = some (2 ^ (-14 : ℤ)) ∧ (2 : ℚ) ^ (-14 : ℤ) ≤ |(2 : ℚ) ^ (-14 : ℤ)| ∧
      |(2 : ℚ) ^ (-14 : ℤ)| < 65520) ∧
    (Single.value 0x477ff000#32 = some 65520 ∧ (65520 : ℚ) ≤ |65520|) := by
  refine ⟨⟨value_zero, ?_⟩, ⟨value_two_pow_neg_25, ?_, ?_⟩, ⟨value_third_row, ?_, ?_⟩,
    ⟨value_two_pow_neg_14, ?_, ?_⟩,
    ⟨value_65520, ?_⟩⟩ <;> norm_num [abs_of_pos]

theorem witness_encode_gives_the_nearest_half : Single.value 0x3f800000#32 = some 1 ∧ 0x7c00 ≤ 0x7c00 :=
  ⟨value_one, le_refl _⟩

theorem witness_encode_error :
    (Single.value 0x3f800000#32 = some 1 ∧ |(1 : ℚ)| < 65520 ∧ (2 : ℚ) ^ (0 : ℤ) ≤ |1| ∧ |(1 : ℚ)| < 2 ^ ((0 : ℤ) + 1)) ∧
    (Single.value 0x33000000#32 = some (2 ^ (-25 : ℤ)) ∧ |(2 : ℚ) ^ (-25 : ℤ)| < 65520 ∧
      |(2 : ℚ) ^ (-25 : ℤ)| < 2 ^ (-14 : ℤ)) := by
  refine ⟨⟨value_one, ?_, ?_, ?_⟩, value_two_pow_neg_25, ?_, ?_⟩ <;> norm_num [abs_of_pos]

/-- The ends of the range of exponents `E`: 2^-14 and 65504. -/
theorem witness_encode_error_ends :
    (Single.value 0x38800000#32 = some (2 ^ (-14 : ℤ)) ∧ (2 : ℚ) ^ (-14 : ℤ) ≤ |(2 : ℚ) ^ (-14 : ℤ)| ∧
      |(2 : ℚ) ^ (-14 : ℤ)| < 2 ^ ((-14 : ℤ) + 1)) ∧
    (Single.value 0x477fe000#32 = some 65504 ∧ (2 : ℚ) ^ (15 : ℤ) ≤ |65504| ∧ |(65504 : ℚ)| < 2 ^ ((15 : ℤ) + 1)) := by
  refine ⟨⟨value_two_pow_neg_14, ?_, ?_⟩, ?_, ?_, ?_⟩
  · norm_num [abs_of_pos]
  · norm_num [abs_of_pos]
  · rw [Single.value_eq (by decide), show Single.sign 0x477fe000#32 = 0 by decide,
      show Single.exp 0x477fe000#32 = 142 by decide, show Single.sig 0x477fe000#32 = 0x7fe000 by decide]
    norm_num [scaledMagnitude]
  · norm_num [abs_of_pos]
  · norm_num [abs_of_pos]

theorem witness_encode_is_monotone :
    Single.fpClass 0x3f800000#32 ≠ .nan ∧ Single.fpClass 0xff800000#32 ≠ .nan ∧
    Single.mag 0x3f800000#32 ≤ Single.mag 0xff800000#32 := by decide

theorem witness_decode_zero : Half.exp 0x8000#16 = 0 ∧ Half.sig 0x8000#16 = 0 := by decide

theorem witness_decode_subnormal :
    (Half.exp 0x0001#16 = 0 ∧ 2 ^ 0 ≤ Half.sig 0x0001#16 ∧ Half.sig 0x0001#16 < 2 ^ (0 + 1)) ∧
    (Half.exp 0x83ff#16 = 0 ∧ 2 ^ 9 ≤ Half.sig 0x83ff#16 ∧ Half.sig 0x83ff#16 < 2 ^ (9 + 1)) := by decide

theorem witness_decode_infinity_and_nan : Half.exp 0xffff#16 = 31 := by decide

theorem witness_decode_normal : Half.exp 0x0400#16 = 1 ∧ Half.exp 0xfbff#16 = 30 := by decide

theorem witness_decode_is_injective : Codec.decode 0x7e00#16 = 0x7fc00000#32 := by decide

theorem witness_encoded_nan_stays_nan :
    0xff800001#32 &&& 0x7f800000#32 = 0x7f800000#32 ∧ 0xff800001#32 &&& 0x007fffff#32 ≠ 0#32 := by decide

theorem witness_encode_saturates :
    Single.mag 0xc77ff000#32 = 0x477ff000 ∧ Single.mag 0x7f800000#32 = 0x7f800000 := by decide

theorem witness_encode_underflow_ranges :
    Single.mag 0xb2ffffff#32 = 0x32ffffff ∧ Single.mag 0x33000000#32 = 0x33000000 ∧
    Single.mag 0xb3bfffff#32 = 0x33bfffff ∧ Single.mag 0x33000001#32 = 0x33000001 := by decide

theorem witness_even_ties :
    Single.fpClass 0xff800001#32 = .nan ∧ Single.mag 0x7f800000#32 = 0x7f800000 ∧ Single.mag 0x477fefff#32 < 0x477ff000 := by
  decide

end Sys2Proof.Tests
end

section
/-! PROOFS. The classes of a pattern, first by its fields and then by its magnitude pattern (30_encoding.md R62, R63), for a
format of any widths; the two formats of the block are instances. -/

namespace Sys2Proof.Machine

/-! ### By the fields -/

section ByFields
variable {top e m : Nat}

theorem classOf_eq_zero_iff : classOf top e m = .zero ↔ e = 0 ∧ m = 0 := by
  unfold classOf; split_ifs <;> simp_all

theorem classOf_eq_subnormal_iff : classOf top e m = .subnormal ↔ e = 0 ∧ m ≠ 0 := by
  unfold classOf; split_ifs <;> simp_all

theorem classOf_eq_normal_iff : classOf top e m = .normal ↔ e ≠ 0 ∧ e ≠ top := by
  unfold classOf; split_ifs <;> simp_all

theorem classOf_eq_infinity_iff : classOf top e m = .infinity ↔ e ≠ 0 ∧ e = top ∧ m = 0 := by
  unfold classOf; split_ifs <;> simp_all

theorem classOf_eq_nan_iff : classOf top e m = .nan ↔ e ≠ 0 ∧ e = top ∧ m ≠ 0 := by
  unfold classOf; split_ifs <;> simp_all

end ByFields

/-! ### By the magnitude pattern -/

/-- The exponent field lies above the significand field, so a bound on it is a bound on the magnitude pattern. -/
theorem exp_lt_iff_mag_lt {p e m : Nat} (k : Nat) (hm : m < 2 ^ p) : e < k ↔ e * 2 ^ p + m < k * 2 ^ p := by
  rw [← Nat.div_lt_iff_lt_mul (Nat.two_pow_pos p), Nat.mul_comm, Nat.mul_add_div (Nat.two_pow_pos p),
    Nat.div_eq_of_lt hm, Nat.add_zero]

/-- With `p` significand bits and the all-ones exponent `top`, each class is a range of the magnitude pattern `n`. -/
theorem classOf_iff_magnitude_range {p top e m n : Nat} (htop : 0 < top) (hn : n = e * 2 ^ p + m) (hm : m < 2 ^ p)
    (he : e ≤ top) :
    (classOf top e m = .zero ↔ n = 0) ∧
    (classOf top e m = .subnormal ↔ 1 ≤ n ∧ n ≤ 2 ^ p - 1) ∧
    (classOf top e m = .normal ↔ 2 ^ p ≤ n ∧ n ≤ top * 2 ^ p - 1) ∧
    (classOf top e m = .infinity ↔ n = top * 2 ^ p) ∧
    (classOf top e m = .nan ↔ top * 2 ^ p + 1 ≤ n) := by
  have hbottom : e < 1 ↔ n < 1 * 2 ^ p := hn ▸ exp_lt_iff_mag_lt 1 hm
  have hbelow : e < top ↔ n < top * 2 ^ p := hn ▸ exp_lt_iff_mag_lt top hm
  have hsig0 : e = 0 → n = m := by rintro rfl; omega
  have hsigTop : e = top → n = top * 2 ^ p + m := by rintro rfl; exact hn
  have hpos : 2 ^ p ≤ top * 2 ^ p := Nat.le_mul_of_pos_left _ htop
  rw [classOf_eq_zero_iff, classOf_eq_subnormal_iff, classOf_eq_normal_iff, classOf_eq_infinity_iff, classOf_eq_nan_iff]
  generalize top * 2 ^ p = inf at *
  refine ⟨?_, ?_, ?_, ?_, ?_⟩ <;> omega

/-- Settles O53: the five ranges of any format, at the widths of the 32-bit and of the 16-bit pattern. -/
theorem classesAreMagnitudeRanges : Obligations.ClassesAreMagnitudeRanges :=
  ⟨fun f => classOf_iff_magnitude_range (by decide) (Single.mag_fields f) (Single.sig_lt f) (Single.exp_le f),
    fun h => classOf_iff_magnitude_range (by decide) (Half.mag_fields h) (Half.sig_lt h) (Half.exp_le h)⟩

end Sys2Proof.Machine
end

section
/-! PROOFS. `ENCODE` path by path (40_encode.md R105, R106, R107, R109). Each path is first an equation for the number of the
half pattern, then the step on the machine with the whole frame. -/

namespace Sys2Proof.Machine

/-! ### From the number of the half pattern to the machine -/

/-- The path equations are about `Codec.encode`; this carries one to the machine. -/
theorem exec_encode_of_toNat {f : U32} {n : Nat} (h : (Codec.encode f).toNat = n) (s : State) :
    exec (.encode f) s = .next { s with results := s.results ++ [BitVec.ofNat 32 n] } :=
  h ▸ exec_encode_ofNat f s

/-! ### The overflow path -/

/-- An infinity and a finite overflow take the same step. -/
theorem exec_encode_overflow {f : U32} (he : 143 ≤ Single.exp f) (hs : Single.exp f = 255 → Single.sig f = 0) (s : State) :
    exec (.encode f) s =
      .next { s with results := s.results ++ [BitVec.ofNat 32 (Single.sign f * 2 ^ 15 + 0x7c00)] } :=
  exec_encode_of_toNat (Codec.encodeBy_overflow _ he hs) s

/-- Settles O17: the overflow path with a zero significand; the two examples are instances. -/
theorem encodeInfinityGivesInfinity : Obligations.EncodeInfinityGivesInfinity :=
  ⟨fun _ s he hs => exec_encode_overflow (by omega) (fun _ => hs) s,
    exec_encode_overflow (f := 0x7f800000#32) (by decide) (by decide),
    exec_encode_overflow (f := 0xff800000#32) (by decide) (by decide)⟩

/-- Settles O18: below the all-ones exponent the overflow path does not look at the significand. -/
theorem encodeFiniteOverflowGivesInfinity : Obligations.EncodeFiniteOverflowGivesInfinity :=
  fun _ s hlow hhigh => exec_encode_overflow hlow (by omega) s

/-! ### The underflow path -/

/-- A number of exactly `k` bits is at least half of `2 ^ k` and below it, so dropping `k` bits by bias leaves 1. -/
theorem roundNat_bias_eq_one {S k : Nat} (hlow : 2 ^ (k - 1) ≤ S) (hhigh : S < 2 ^ k) : roundNat .bias S k = 1 := by
  rw [roundNat, Nat.div_eq_of_lt hhigh, Nat.mod_eq_of_lt hhigh, if_pos hlow]

/-- R107, closing sentence: at exponent field 102 the 24-bit significand loses all its bits and rounds up. -/
theorem Codec.encode_smallest_subnormal {f : U32} (he : Single.exp f = 102) :
    (Codec.encode f).toNat = Single.sign f * 2 ^ 15 + 1 := by
  have hsig := Single.sig_lt f
  have hround : roundNat .bias (2 ^ 23 + Single.sig f) (126 - Single.exp f) = 1 := by
    rw [he]
    exact roundNat_bias_eq_one (Nat.le_add_right _ _) (by omega)
  rw [← hround]
  exact Codec.encodeBy_subnormal _ (by omega) (by omega)

/-- Settles O19: the zero path below exponent field 102, and the first field of the subnormal path. -/
theorem encodeUnderflowGivesSignedZero : Obligations.EncodeUnderflowGivesSignedZero :=
  fun _ s => ⟨fun he => exec_encode_of_toNat (Codec.encodeBy_zero _ he) s,
    fun he => exec_encode_of_toNat (Codec.encode_smallest_subnormal he) s⟩

/-! ### The regular case -/

/-- R109 as the spec writes it: the bias added to the significand field, then 13 bits dropped. -/
theorem Codec.encode_regular {f : U32} (hlow : 113 ≤ Single.exp f) (hhigh : Single.exp f ≤ 142) :
    (Codec.encode f).toNat =
      Single.sign f * 2 ^ 15 + (Single.exp f - 112) * 2 ^ 10 + (Single.sig f + 2 ^ 12) / 2 ^ 13 := by
  have hround : (Single.sig f + 2 ^ 12) / 2 ^ 13 = roundNat .bias (Single.sig f) 13 := by
    simpa using biased_shift_eq (Single.sig f) 0
  rw [hround]
  exact Codec.encodeBy_regular _ hlow hhigh

/-- The rounded significand field overflows its ten bits exactly for the significands that round up to the next power of two. -/
theorem Single.rounded_sig_carries_iff (f : U32) :
    (Single.sig f + 2 ^ 12) / 2 ^ 13 = 0x0400 ↔ 0x007ff000 ≤ Single.sig f := by
  have hsig := Single.sig_lt f
  omega

/-- The carry of the regular case: the exponent field one higher, nothing below it. -/
theorem Codec.encode_regular_carry {f : U32} (hlow : 113 ≤ Single.exp f) (hhigh : Single.exp f ≤ 142)
    (hcarry : 0x007ff000 ≤ Single.sig f) :
    (Codec.encode f).toNat = Single.sign f * 2 ^ 15 + (Single.exp f - 111) * 2 ^ 10 := by
  rw [Codec.encode_regular hlow hhigh, (Single.rounded_sig_carries_iff f).mpr hcarry]
  omega

/-- Settles O21: the sum of the parts, when the significand part carries, and what the carry does to the fields. -/
theorem encodeRegularCaseRoundsByBias : Obligations.EncodeRegularCaseRoundsByBias := by
  intro f s hlow hhigh
  refine ⟨exec_encode_of_toNat (Codec.encode_regular hlow hhigh) s, Single.rounded_sig_carries_iff f, fun hcarry => ?_⟩
  have hsum := Codec.encode_regular_carry hlow hhigh hcarry
  refine ⟨?_, ?_, fun htop => ?_⟩
  · rw [Half.exp_eq, hsum]; omega
  · rw [Half.sig_eq, hsum]; omega
  · have hsign := Single.sign_le f
    apply BitVec.eq_of_toNat_eq
    rw [hsum, htop, BitVec.toNat_ofNat]
    omega

end Sys2Proof.Machine
end

section
/-! PROOFS. `DECODE` branch by branch (41_decode.md R142, R144, R145). The equations for the number of the result are those of
Laws/Expand.lean; what is added is the step on the machine and the fields of a normal's result. -/

namespace Sys2Proof.Machine

/-! ### From the number of the result to the machine -/

/-- The branch equations are about `Codec.decode`; this carries one to the machine. -/
theorem exec_decode_of_toNat {h : U16} {n : Nat} (hn : (Codec.decode h).toNat = n) (s : State) :
    exec (.decode h) s = .next { s with results := s.results ++ [BitVec.ofNat 32 n] } :=
  hn ▸ exec_decode_ofNat h s

/-! ### Zeros -/

theorem exec_decode_zero {h : U16} (he : Half.exp h = 0) (hs : Half.sig h = 0) (s : State) :
    exec (.decode h) s = .next { s with results := s.results ++ [BitVec.ofNat 32 (Half.sign h * 2 ^ 31)] } :=
  exec_decode_of_toNat (Codec.decode_zero he hs) s

/-- Settles O30: the branch with both fields zero; the two zeros are instances. -/
theorem decodeZeroGivesSignedZero : Obligations.DecodeZeroGivesSignedZero :=
  ⟨fun _ s he hs => exec_decode_zero he hs s,
    exec_decode_zero (h := 0x0000#16) (by decide) (by decide),
    exec_decode_zero (h := 0x8000#16) (by decide) (by decide)⟩

/-! ### Infinities and NaNs -/

theorem exec_decode_infinity_nan {h : U16} (he : Half.exp h = 31) (s : State) :
    exec (.decode h) s = .next { s with results := s.results ++
      [BitVec.ofNat 32 (Half.sign h * 2 ^ 31 + 0x7f800000 + Half.sig h * 2 ^ 13)] } :=
  exec_decode_of_toNat (Codec.decode_infinity_nan he) s

/-- Settles O32: the all-ones branch; the two infinities are instances with a zero significand. -/
theorem decodeInfinityAndNaNMovePayload : Obligations.DecodeInfinityAndNaNMovePayload :=
  ⟨fun _ s he => exec_decode_infinity_nan he s,
    exec_decode_infinity_nan (h := 0x7c00#16) (by decide),
    exec_decode_infinity_nan (h := 0xfc00#16) (by decide)⟩

/-! ### Normals -/

/-- The fields below the sign are read off a number put together from them, the converse of `Single.toNat_fields`. -/
theorem Single.fields_of_toNat {f : U32} {sign e m : Nat} (hf : f.toNat = sign * 2 ^ 31 + e * 2 ^ 23 + m)
    (he : e < 2 ^ 8) (hm : m < 2 ^ 23) : Single.exp f = e ∧ Single.sig f = m := by
  rw [Single.exp_eq, Single.sig_eq, hf]
  omega

/-- R145, "The addition changes only bits 10 and above": the sum of the branch, field by field. -/
theorem Codec.decode_normal_fields {h : U16} (hlow : 1 ≤ Half.exp h) (hhigh : Half.exp h ≤ 30) :
    (Codec.decode h).toNat = Half.sign h * 2 ^ 31 + (Half.exp h + 112) * 2 ^ 23 + Half.sig h * 2 ^ 13 := by
  rw [Codec.decode_normal hlow hhigh, Half.mag_fields]
  omega

/-- Settles O33: the rebiased sum on the machine, and the two fields it leaves in the result. -/
theorem decodeNormalRebiases : Obligations.DecodeNormalRebiases := by
  intro h s hlow hhigh
  have hsig := Half.sig_lt h
  exact ⟨exec_decode_of_toNat (Codec.decode_normal hlow hhigh) s,
    Single.fields_of_toNat (Codec.decode_normal_fields hlow hhigh) (by omega) (by omega)⟩

end Sys2Proof.Machine
end

section
/-! PROOFS. `ISNAN`, `ISINF` and `ISFINITE` one by one (42_classify.md R160, R161, R162). A predicate's bit is decided by its
condition on the fields (Laws/Classify.lean); from that follow, for all three alike, the bit on the port and the result word on
the machine. -/

namespace Sys2Proof

/-! ### The command word of a 16-bit operand -/

/-- R72, R74: the operation number stands above bit 31, the operand at the bottom, zeros between them. -/
theorem Command.word_of_zext (op : OpNum) (h : U16) :
    Command.word { op := op, arg := zext32 h } = BitVec.ofNat 35 (op.toNat * 2 ^ 32 + h.toNat) := by
  have harg : (zext32 h).toNat = h.toNat := BitVec.toNat_setWidth_of_le (by decide)
  rw [← harg, ← Command.word_toNat { op := op, arg := zext32 h }, BitVec.ofNat_toNat, BitVec.setWidth_eq]

namespace Machine

/-! ### From a condition to the bit and the result word -/

section Bit
variable {P : Prop} [Decidable P] {b : U1}

theorem bit_eq_ite (hb : b = 1#1 ↔ P) : b = if P then 1#1 else 0#1 := by
  split_ifs with hP
  · exact hb.mpr hP
  · exact (BitVec.eq_zero_or_eq_one b).resolve_right (mt hb.mp hP)

theorem resOfBit_eq_ite (hb : b = 1#1 ↔ P) : resOfBit b = if P then 1#32 else 0#32 := by
  rw [bit_eq_ite hb, apply_ite resOfBit]
  rfl

/-- An instruction whose result is a predicate's bit appends 1 or 0 to the results and leaves the rest as it was. -/
theorem exec_of_bit {i : Instr} (hi : resultOf i = resOfBit b) (hb : b = 1#1 ↔ P) (s : State) :
    exec i s = .next { s with results := s.results ++ [if P then 1#32 else 0#32] } := by
  rw [exec_eq, hi, resOfBit_eq_ite hb]
  rfl

end Bit

/-! ### The conditions as patterns -/

/-- R160: the NaNs are the patterns above the infinity of either sign. -/
theorem Half.nan_fields_iff_range (h : U16) :
    Half.exp h = 31 ∧ Half.sig h ≠ 0 ↔
      (0x7c01 ≤ h.toNat ∧ h.toNat ≤ 0x7fff) ∨ (0xfc01 ≤ h.toNat ∧ h.toNat ≤ 0xffff) := by
  have hlt := h.isLt
  rw [Half.exp_eq, Half.sig_eq]
  omega

/-- R161: one infinity of each sign. -/
theorem Half.mag_eq_inf_iff (h : U16) : Half.mag h = 0x7c00 ↔ h = 0x7c00#16 ∨ h = 0xfc00#16 := by
  have hlt := h.isLt
  rw [Half.mag_eq, ← BitVec.toNat_inj, ← BitVec.toNat_inj, BitVec.toNat_ofNat, BitVec.toNat_ofNat]
  omega

/-- The exponent field has five bits, so only the all-ones field lies above 30. -/
theorem Half.exp_le_thirty_iff (h : U16) : Half.exp h ≤ 30 ↔ Half.exp h ≠ 31 := by
  have hle := Half.exp_le h
  omega

/-! ### The three predicates -/

/-- Settles O37: the condition of R160 on the machine and on the port, and the two ranges of NaN patterns. -/
theorem isNaNTestsExponentAndPayload : Obligations.IsNaNTestsExponentAndPayload :=
  fun h => ⟨exec_of_bit rfl (Codec.isNaN_iff h), fun _ => bit_eq_ite (Codec.isNaN_iff h), Half.nan_fields_iff_range h,
    Command.word_of_zext 2#3 h⟩

/-- Settles O38: the condition of R161 on the machine and on the port, and the two patterns that meet it. -/
theorem isInfIsTrueOfTheTwoInfinities : Obligations.IsInfIsTrueOfTheTwoInfinities :=
  fun h => ⟨exec_of_bit rfl (Codec.isInf_iff h), fun _ => bit_eq_ite (Codec.isInf_iff h), Half.mag_eq_inf_iff h,
    Command.word_of_zext 3#3 h⟩

/-- Settles O39: the condition of R162 on the machine and on the port, with "not all ones" read as at most 30. -/
theorem isFiniteTestsTheExponent : Obligations.IsFiniteTestsTheExponent := by
  intro h
  have hbit : Codec.isFinite h = 1#1 ↔ Half.exp h ≤ 30 := (Codec.isFinite_iff h).trans (Half.exp_le_thirty_iff h).symm
  exact ⟨exec_of_bit rfl hbit, fun _ => bit_eq_ite hbit, Half.exp_le_thirty_iff h, Command.word_of_zext 4#3 h⟩

end Machine
end Sys2Proof
end

section
/-! PROOFS. The document's properties of the two conversions (45_properties.md R182, R183, R184, R186, R188). Each is read off
the path equations of Laws/Expand.lean and Laws/Convert.lean, for every path of the listing. -/

namespace Sys2Proof.Machine

/-! ### The sign -/

/-- Moving a number with leading one at index `p` up by `n - p` puts that one at index `n`, and nothing above it. -/
theorem mul_two_pow_sub_lt {m p n : Nat} (hp : p ≤ n) (hm : m < 2 ^ (p + 1)) : m * 2 ^ (n - p) < 2 ^ (n + 1) := by
  calc m * 2 ^ (n - p) < 2 ^ (p + 1) * 2 ^ (n - p) := Nat.mul_lt_mul_of_pos_right hm (Nat.two_pow_pos _)
    _ = 2 ^ (n + 1) := by rw [← Nat.pow_add]; congr 1; omega

/-- R182 for `decode`: in each branch the exponent and significand parts stay below bit 31. -/
theorem Single.sign_decode (h : U16) : Single.sign (Codec.decode h) = Half.sign h := by
  have hsig := Half.sig_lt h
  have hexp := Half.exp_le h
  rw [Single.sign_eq]
  by_cases hzero : Half.exp h = 0
  · by_cases hs : Half.sig h = 0
    · rw [Codec.decode_zero hzero hs]; omega
    · obtain ⟨p, hp, hlow, hhigh⟩ := Half.exists_leading_one hs
      have hnormalized := mul_two_pow_sub_lt (n := 10) (by omega) hhigh
      rw [Codec.decode_subnormal hzero hlow hhigh]; omega
  · by_cases htop : Half.exp h = 31
    · rw [Codec.decode_infinity_nan htop]; omega
    · rw [Codec.decode_normal_fields (by omega) (by omega)]; omega

/-- The subnormal path drops at least 14 of the 24 bits, so what it adds to the sign is at most `2 ^ 10`. -/
theorem roundNat_subnormal_le (t : Config.TieRule) (f : U32) {k : Nat} (hk : 14 ≤ k) :
    roundNat t (2 ^ 23 + Single.sig f) k ≤ 2 ^ 10 := by
  have hsig := Single.sig_lt f
  have hround := roundNat_le t (2 ^ 23 + Single.sig f) k
  have hdiv : (2 ^ 23 + Single.sig f) / 2 ^ k ≤ (2 ^ 23 + Single.sig f) / 2 ^ 14 :=
    Nat.div_le_div_left (Nat.pow_le_pow_right (by decide) hk) (Nat.two_pow_pos 14)
  omega

/-- R182 for `encode`, under either tie rule: on each path what is added to the sign stays below bit 15. -/
theorem Half.sign_encodeBy (t : Config.TieRule) (f : U32) : Half.sign (Codec.encodeBy t f) = Single.sign f := by
  have hsig := Single.sig_lt f
  rw [Half.sign_eq]
  by_cases hnan : Single.exp f = 255 ∧ Single.sig f ≠ 0
  · obtain ⟨hexp, hpayload⟩ := hnan
    rw [Codec.encodeBy_nan t hexp hpayload]; split <;> omega
  by_cases hover : 143 ≤ Single.exp f
  · rw [Codec.encodeBy_overflow t hover (by omega)]; omega
  by_cases hzero : Single.exp f ≤ 101
  · rw [Codec.encodeBy_zero t hzero]; omega
  by_cases hsub : Single.exp f ≤ 112
  · have hround := roundNat_subnormal_le t f (k := 126 - Single.exp f) (by omega)
    rw [Codec.encodeBy_subnormal t (by omega) hsub]; omega
  · have hround := roundNat_le t (Single.sig f) 13
    rw [Codec.encodeBy_regular t (by omega) (by omega)]; omega

theorem Codec.decode_getLsbD_sign (h : U16) : (Codec.decode h).getLsbD 31 = h.getLsbD 15 := by
  rw [Single.getLsbD_sign, Half.getLsbD_sign, Single.sign_decode]

theorem Codec.encodeBy_getLsbD_sign (t : Config.TieRule) (f : U32) : (Codec.encodeBy t f).getLsbD 15 = f.getLsbD 31 := by
  rw [Single.getLsbD_sign, Half.getLsbD_sign, Half.sign_encodeBy]

/-- The result word of `ENCODE` has the half pattern's bits at the bottom. -/
theorem resOfHalf_getLsbD {i : Nat} (hi : i < 32) (h : U16) : (resOfHalf h).getLsbD i = h.getLsbD i := by
  rw [resOfHalf, BitVec.getLsbD_setWidth, decide_eq_true hi, Bool.true_and]

/-- Settles O45: the sign bit on every path; the three examples lie on the overflow, the zero and the NaN path. -/
theorem conversionsPreserveTheSignBit : Obligations.ConversionsPreserveTheSignBit :=
  ⟨fun h s => ⟨_, exec_eq (.decode h) s, Codec.decode_getLsbD_sign h⟩,
    fun f s => ⟨_, exec_eq (.encode f) s, (resOfHalf_getLsbD (by decide) _).trans (Codec.encodeBy_getLsbD_sign _ f)⟩,
    fun s => ⟨exec_encode_overflow (f := 0xc7800000#32) (by decide) (by decide) s,
      exec_encode_of_toNat (Codec.encodeBy_zero (f := 0x80000001#32) _ (by decide)) s,
      exec_encode_of_toNat (Codec.encodeBy_nan (f := 0xffc00000#32) _ (by decide) (by decide)) s⟩⟩

/-! ### NaNs -/

/-- The payload of the half NaN for a NaN operand: the top ten significand bits, or 1 when they are all zero (R104, R184). -/
def Single.halfPayload (f : U32) : Nat := if Single.sig f / 2 ^ 13 = 0 then 1 else Single.sig f / 2 ^ 13

/-- The payload fits the ten bits below the exponent field and is never zero. -/
theorem Single.halfPayload_bounds (f : U32) : 1 ≤ Single.halfPayload f ∧ Single.halfPayload f < 2 ^ 10 := by
  have hsig := Single.sig_lt f
  rw [Single.halfPayload]
  split <;> omega

/-- R184: the fields of an encoded NaN, under either tie rule. -/
theorem Codec.encodeBy_nan_fields (t : Config.TieRule) {f : U32} (he : Single.exp f = 255) (hs : Single.sig f ≠ 0) :
    Half.exp (Codec.encodeBy t f) = 31 ∧ Half.sig (Codec.encodeBy t f) = Single.halfPayload f := by
  obtain ⟨hpos, hlt⟩ := Single.halfPayload_bounds f
  have hsum : (Codec.encodeBy t f).toNat = Single.sign f * 2 ^ 15 + (0x7c00 + Single.halfPayload f) :=
    Codec.encodeBy_nan t he hs
  rw [Half.exp_eq, Half.sig_eq, hsum]
  omega

/-- The payload as R184 writes it, `f[22:13]` being the top ten bits of the significand field. -/
theorem Single.halfPayload_eq_toNat (f : U32) :
    Single.halfPayload f =
      (if f.extractLsb' 13 10 = 0#10 then 0x0001#16 else (f.extractLsb' 13 10).setWidth 16).toNat := by
  have htop : (f.extractLsb' 13 10).toNat = Single.sig f / 2 ^ 13 := by
    rw [BitVec.extractLsb'_toNat, Nat.shiftRight_eq_div_pow, Single.sig_eq]; omega
  have hiff : f.extractLsb' 13 10 = 0#10 ↔ Single.sig f / 2 ^ 13 = 0 := by
    rw [← BitVec.toNat_inj, htop]; rfl
  simp only [Single.halfPayload, hiff]
  split
  · rfl
  · rw [BitVec.toNat_setWidth_of_le (by decide), htop]

/-- A pattern with a nonzero payload is neither infinity. -/
theorem Half.ne_infinities_of_sig_ne_zero {h : U16} (hs : Half.sig h ≠ 0) : h ≠ 0x7c00#16 ∧ h ≠ 0xfc00#16 := by
  constructor <;> (rintro rfl; exact hs (by decide))

/-- Settles O47: `ISNAN`, the two infinities and the payload are read off the fields of the encoded NaN. -/
theorem encodedNaNStaysNaN : Obligations.EncodedNaNStaysNaN := by
  intro f s hexp hsig
  obtain ⟨he, hpayload⟩ := Codec.encodeBy_nan_fields Config.tieRule
    ((Codec.fExp_eq_mask_iff f).mp hexp) ((Codec.fSig_ne_zero_iff f).mp hsig)
  have hs : Half.sig (Codec.encode f) ≠ 0 := by
    obtain ⟨hpos, _⟩ := Single.halfPayload_bounds f
    rw [Codec.encode, hpayload]; omega
  obtain ⟨hne, hne'⟩ := Half.ne_infinities_of_sig_ne_zero hs
  refine ⟨Codec.encode f, exec_encode_ofNat f s, ?_, hne, hne', ?_⟩
  · rw [exec_of_bit rfl (Codec.isNaN_iff _) s, if_pos ⟨he, hs⟩]
  · apply BitVec.eq_of_toNat_eq
    exact (Codec.hSig_toNat _).trans (hpayload.trans (Single.halfPayload_eq_toNat f))

/-! ### Saturation -/

/-- A result word put together from the sign and a magnitude, as the choice between the two signs. -/
theorem Single.ofNat_sign_add (f : U32) (n : Nat) :
    BitVec.ofNat 32 (Single.sign f * 2 ^ 15 + n) =
      if f.getLsbD 31 then BitVec.ofNat 32 (2 ^ 15 + n) else BitVec.ofNat 32 n := by
  rw [Single.getLsbD_sign]
  rcases Nat.le_one_iff_eq_zero_or_eq_one.mp (Single.sign_le f) with hpos | hneg
  · simp [hpos]
  · simp [hneg]

/-- R186: from 65520 the regular case carries into the infinity pattern; from 2^16 the overflow path gives it. -/
theorem Codec.encode_saturated {f : U32} (hlow : 0x477ff000 ≤ Single.mag f) (hhigh : Single.mag f ≤ 0x7f800000) :
    (Codec.encode f).toNat = Single.sign f * 2 ^ 15 + 0x7c00 := by
  have hsig := Single.sig_lt f
  rw [Single.mag_fields] at hlow hhigh
  by_cases hover : 143 ≤ Single.exp f
  · exact Codec.encodeBy_overflow _ hover (by omega)
  · have htop : Single.exp f = 142 := by omega
    have hcarry := Codec.encode_regular_carry (f := f) (by omega) (by omega) (by omega)
    omega

/-- Settles O48: the saturated magnitudes under their sign; the example below 65520 lies in the regular case. -/
theorem encodeSaturatesFrom65520 : Obligations.EncodeSaturatesFrom65520 := by
  refine ⟨fun f s hlow hhigh => ?_,
    exec_encode_of_toNat (Codec.encode_regular (f := 0x477fe001#32) (by decide) (by decide))⟩
  rw [exec_encode_of_toNat (Codec.encode_saturated hlow hhigh) s, Single.ofNat_sign_add]
  rfl

/-! ### Single values -/

theorem exec_decode_normal {h : U16} (hlow : 1 ≤ Half.exp h) (hhigh : Half.exp h ≤ 30) (s : State) :
    exec (.decode h) s =
      .next { s with results := s.results ++ [BitVec.ofNat 32 (Half.sign h * 2 ^ 31 + (Half.mag h + 0x1c000) * 2 ^ 13)] } :=
  exec_decode_of_toNat (Codec.decode_normal hlow hhigh) s

/-- 1.0 is a normal of the 16-bit format. -/
theorem exec_decode_one (s : State) :
    exec (.decode 0x3c00#16) s = .next { s with results := s.results ++ [0x3f800000#32] } :=
  exec_decode_normal (h := 0x3c00#16) (by decide) (by decide) s

/-- Settles O46: the two zeros, the two infinities and the normal 1.0, each by its branch of `decode`. -/
theorem decodeSpecialValues : Obligations.DecodeSpecialValues :=
  fun s => ⟨exec_decode_zero (h := 0x0000#16) (by decide) (by decide) s,
    exec_decode_zero (h := 0x8000#16) (by decide) (by decide) s,
    exec_decode_infinity_nan (h := 0x7c00#16) (by decide) s,
    exec_decode_infinity_nan (h := 0xfc00#16) (by decide) s,
    exec_decode_one s⟩

/-- Settles O50: 1.0 lies in the regular case of `encode` and among the normals of `decode`. -/
theorem oneEncodesAndDecodes : Obligations.OneEncodesAndDecodes :=
  fun s => ⟨exec_encode_of_toNat (Codec.encode_regular (f := 0x3f800000#32) (by decide) (by decide)) s, exec_decode_one s⟩

end Sys2Proof.Machine
end

section
/-! PROOFS. Every operation completes with one result and no fault (60_exceptions.md R220). -/

namespace Sys2Proof.Machine

/-- The result read is part of the state after it, so that state tells which result was read. -/
@[simp] theorem State.emit_inj {s : State} {r r' : U32} : s.emit r = s.emit r' ↔ r = r' := by
  simp [State.emit]

/-- The instruction's result word is the only one `exec` can be said to read, from any state. -/
theorem exec_eq_next_emit_iff {i : Instr} {s : State} {r : U32} :
    exec i s = .next (s.emit r) ↔ r = resultOf i := by
  rw [exec_eq, Host.Outcome.next.injEq, State.emit_inj, eq_comm]

/-- Settles O12: the one result is `resultOf i`, which reads no state; the state after reset already tells it from any other
word. -/
theorem everyOperationCompletesIndependently : Obligations.EveryOperationCompletesIndependently := by
  refine ⟨fun i => ⟨resultOf i, exec_eq i, fun r hr => ?_⟩, fun fault => nomatch fault⟩
  exact exec_eq_next_emit_iff.mp (hr State.reset)

end Sys2Proof.Machine
end

section
/-! PROOFS. The decoder against the encoder and against the opcode table (30_encoding.md R73, R76, R77, R81). -/

namespace Sys2Proof

/-! ### Decoding an encoded instruction -/

theorem Instr.canonical_of_wf {i : Instr} (h : i.wf = true) : i.canonical = i := by
  cases i <;> simp_all [Instr.wf, Instr.canonical]

/-- The fields of an instruction spell its primary operation: a 16-bit operand fits and is read back whole. -/
theorem decodeCommand_command (i : Instr) : decodeCommand i.command = .ok i.canonical := by
  cases i <;>
    simp [Instr.command, Instr.canonical, decodeCommand, Command.opAssigned, Command.operandFits_of_zext,
      Command.half_of_zext]

@[simp] theorem decodeWord_encodeInstr (i : Instr) : decodeWord (encodeInstr i) = .ok i.canonical := by
  rw [decodeWord, encodeInstr, CmdWord.command_word, decodeCommand_command]

/-- Settles O4: the word splits into the fields it was joined from, and these spell the primary operation. -/
theorem decodeOfEncodeIsCanonical : Obligations.DecodeOfEncodeIsCanonical :=
  fun i => ⟨decodeWord_encodeInstr i, fun hwf => by rw [decodeWord_encodeInstr, Instr.canonical_of_wf hwf]⟩

/-! ### Encoding a decoded word -/

/-- An operand that fits is its low half, zero-extended (R74, R76). -/
theorem Command.zext_half {c : Command} (hop : c.op ≠ 0#3) (hfit : c.operandFits = true) : zext32 c.half = c.arg := by
  have hhigh : c.arg.toNat / 2 ^ 16 % 2 ^ 16 = 0 := by
    have hzero : c.arg.extractLsb' 16 16 = 0#16 := by simpa [Command.operandFits, hop] using hfit
    simpa [BitVec.extractLsb'_toNat, Nat.shiftRight_eq_div_pow] using congrArg BitVec.toNat hzero
  have hlt := c.arg.isLt
  apply BitVec.eq_of_toNat_eq
  rw [BitVec.toNat_setWidth_of_le (by decide), Command.half, BitVec.extractLsb'_toNat, Nat.shiftRight_zero]
  omega

/-- A command of a 16-bit operation is put together again from its number and its low half. -/
theorem Command.mk_zext_half {c : Command} {op : OpNum} (hop : c.op = op) (hne : op ≠ 0#3)
    (hfit : c.operandFits = true) : { op := op, arg := zext32 c.half } = c := by
  rw [Command.zext_half (by rwa [hop]) hfit, ← hop]

/-- A command that decodes is the command of what it decodes to. -/
theorem command_of_decodeCommand {c : Command} {i : Instr} (h : decodeCommand c = .ok i) :
    i.command = c ∧ i.wf = true := by
  rcases decodeCommand_cases c with
    ⟨hop, hd⟩ | ⟨-, hd⟩ | ⟨-, -, -, hd⟩ | ⟨hfit, ⟨hop, hd⟩ | ⟨hop, hd⟩ | ⟨hop, hd⟩ | ⟨hop, hd⟩⟩ <;>
    rw [hd] at h <;> cases h
  · exact ⟨by rw [Instr.command, ← hop], rfl⟩
  all_goals exact ⟨Command.mk_zext_half hop (by decide) hfit, rfl⟩

theorem encodeInstr_of_decodeWord {c : CmdWord} {i : Instr} (h : decodeWord c = .ok i) :
    encodeInstr i = c ∧ i.wf = true := by
  obtain ⟨hcommand, hwf⟩ := command_of_decodeCommand h
  exact ⟨by rw [encodeInstr, hcommand, Command.word_command], hwf⟩

/-- Settles O5: the decoder loses no bit of a word it accepts. -/
theorem encodeOfDecodeIsTheWord : Obligations.EncodeOfDecodeIsTheWord :=
  fun _ _ h => encodeInstr_of_decodeWord h

/-! ### What the decoder answers, by the number of the word -/

theorem CmdWord.op_eq_iff (c : CmdWord) (op : OpNum) : (CmdWord.command c).op = op ↔ c.toNat / 2 ^ 32 = op.toNat := by
  rw [← BitVec.toNat_inj, CmdWord.op_toNat]

theorem CmdWord.opAssigned_eq_false_iff (c : CmdWord) :
    (CmdWord.command c).opAssigned = false ↔ 5 ≤ c.toNat / 2 ^ 32 := by
  rw [Command.opAssigned, decide_eq_false_iff_not, CmdWord.op_toNat]
  omega

theorem CmdWord.operandFits_iff (c : CmdWord) :
    (CmdWord.command c).operandFits = true ↔ c.toNat / 2 ^ 32 = 0 ∨ c.toNat / 2 ^ 16 % 2 ^ 16 = 0 := by
  rw [Command.operandFits, Bool.or_eq_true, beq_iff_eq, beq_iff_eq, CmdWord.high_eq_zero_iff, CmdWord.op_eq_iff]
  rfl

/-- Everything the decoder can answer, by the operation number and the high half of the operand (R73, R76). -/
theorem decodeWord_cases (c : CmdWord) :
    (c.toNat / 2 ^ 32 = 0 ∧ decodeWord c = .ok (.encode (CmdWord.command c).arg)) ∨
    (5 ≤ c.toNat / 2 ^ 32 ∧ decodeWord c = .error .opReserved) ∨
    (1 ≤ c.toNat / 2 ^ 32 ∧ c.toNat / 2 ^ 32 ≤ 4 ∧ c.toNat / 2 ^ 16 % 2 ^ 16 ≠ 0 ∧
      decodeWord c = .error .operandHighBitsSet) ∨
    (c.toNat / 2 ^ 16 % 2 ^ 16 = 0 ∧
      ((c.toNat / 2 ^ 32 = 1 ∧ decodeWord c = .ok (.decode (CmdWord.command c).half)) ∨
       (c.toNat / 2 ^ 32 = 2 ∧ decodeWord c = .ok (.isNaN (CmdWord.command c).half)) ∨
       (c.toNat / 2 ^ 32 = 3 ∧ decodeWord c = .ok (.isInf (CmdWord.command c).half)) ∨
       (c.toNat / 2 ^ 32 = 4 ∧ decodeWord c = .ok (.isFinite (CmdWord.command c).half)))) := by
  have hreserved := CmdWord.opAssigned_eq_false_iff c
  have hfits := CmdWord.operandFits_iff c
  simp only [decodeWord]
  rcases decodeCommand_cases (CmdWord.command c) with
    ⟨hop, hd⟩ | ⟨hop, hd⟩ | ⟨hop, hassigned, hwide, hd⟩ | ⟨hfit, ⟨hop, hd⟩ | ⟨hop, hd⟩ | ⟨hop, hd⟩ | ⟨hop, hd⟩⟩
  · exact .inl ⟨(CmdWord.op_eq_iff c _).mp hop, hd⟩
  · exact .inr (.inl ⟨hreserved.mp hop, hd⟩)
  · rw [Ne, CmdWord.op_eq_iff, BitVec.toNat_ofNat, Nat.zero_mod] at hop
    simp only [hassigned, hwide, Bool.true_eq_false, Bool.false_eq_true, false_iff] at hreserved hfits
    exact .inr (.inr (.inl ⟨by omega, by omega, by omega, hd⟩))
  all_goals
    have hnumber := (CmdWord.op_eq_iff c _).mp hop
    simp only [hnumber, hfit, hd, BitVec.reduceToNat, true_iff] at hfits ⊢
    simpa using hfits

/-! ### The opcode table -/

/-- The mask of `ENCODE`'s row keeps the operation number. -/
theorem CmdWord.and_opMask_toNat (c : CmdWord) : (c &&& 0x700000000#35).toNat = c.toNat / 2 ^ 32 * 2 ^ 32 := by
  have key : c &&& 0x700000000#35 = (c.extractLsb' 32 3).setWidth 35 <<< 32 := by
    ext i hi
    interval_cases i <;> simp
  have hlt := c.isLt
  rw [key, BitVec.toNat_shiftLeft, BitVec.toNat_setWidth, BitVec.extractLsb'_toNat, Nat.shiftRight_eq_div_pow,
    Nat.shiftLeft_eq]
  omega

/-- The mask of the other rows keeps the high half of the operand as well. -/
theorem CmdWord.and_halfMask_toNat (c : CmdWord) : (c &&& 0x7ffff0000#35).toNat = c.toNat / 2 ^ 16 * 2 ^ 16 := by
  have key : c &&& 0x7ffff0000#35 = (c.extractLsb' 16 19).setWidth 35 <<< 16 := by
    ext i hi
    interval_cases i <;> simp
  have hlt := c.isLt
  rw [key, BitVec.toNat_shiftLeft, BitVec.toNat_setWidth, BitVec.extractLsb'_toNat, Nat.shiftRight_eq_div_pow,
    Nat.shiftLeft_eq]
  omega

theorem CmdWord.and_opMask_eq_zero_iff (c : CmdWord) : c &&& 0x700000000#35 = 0#35 ↔ c.toNat / 2 ^ 32 = 0 := by
  rw [← BitVec.toNat_inj, CmdWord.and_opMask_toNat, BitVec.toNat_ofNat]
  omega

theorem CmdWord.and_halfMask_eq_iff (c : CmdWord) {k : Nat} (hk : k < 8) :
    c &&& 0x7ffff0000#35 = BitVec.ofNat 35 (k * 2 ^ 32) ↔ c.toNat / 2 ^ 32 = k ∧ c.toNat / 2 ^ 16 % 2 ^ 16 = 0 := by
  rw [← BitVec.toNat_inj, CmdWord.and_halfMask_toNat, BitVec.toNat_ofNat]
  omega

/-- Match and mask of every row, in terms of the two fields that `decodeWord_cases` looks at. -/
theorem OpRow.spells_iff (c : CmdWord) : ∀ r ∈ opTable,
    (r.spells c = true ↔
      c.toNat / 2 ^ 32 = r.pattern.toNat / 2 ^ 32 ∧ (c.toNat / 2 ^ 32 = 0 ∨ c.toNat / 2 ^ 16 % 2 ^ 16 = 0)) := by
  simp only [opTable, List.forall_mem_cons, OpRow.spells, beq_iff_eq, BitVec.reduceToNat]
  refine ⟨(CmdWord.and_opMask_eq_zero_iff c).trans ?_, (CmdWord.and_halfMask_eq_iff c (k := 1) (by decide)).trans ?_,
    (CmdWord.and_halfMask_eq_iff c (k := 2) (by decide)).trans ?_,
    (CmdWord.and_halfMask_eq_iff c (k := 3) (by decide)).trans ?_,
    (CmdWord.and_halfMask_eq_iff c (k := 4) (by decide)).trans ?_, List.forall_mem_nil _⟩ <;> omega

theorem spells_iff_decodes (c : CmdWord) : ∀ r ∈ opTable,
    (r.spells c = true ↔ ∃ i, decodeWord c = .ok i ∧ i.mnemonic = r.mnemonic) := by
  intro r hr
  rw [OpRow.spells_iff c r hr]
  revert r
  simp only [opTable, List.forall_mem_cons, BitVec.reduceToNat]
  rcases decodeWord_cases c with
    ⟨hop, hd⟩ | ⟨hop, hd⟩ | ⟨hlow, hop, hhigh, hd⟩ | ⟨hhigh, ⟨hop, hd⟩ | ⟨hop, hd⟩ | ⟨hop, hd⟩ | ⟨hop, hd⟩⟩
  all_goals
    simp [hd, Instr.mnemonic]
    omega

/-- A mnemonic names at most one row. -/
theorem opTable_eq_of_mnemonic_eq : ∀ r ∈ opTable, ∀ r' ∈ opTable, r.mnemonic = r'.mnemonic → r = r' := by decide

/-- Every primary operation has a row. -/
theorem exists_row_of_wf {i : Instr} (h : i.wf = true) : ∃ r ∈ opTable, i.mnemonic = r.mnemonic := by
  cases i <;> simp_all [Instr.wf, Instr.mnemonic, opTable]

theorem no_row_spells_iff (c : CmdWord) :
    (∀ r ∈ opTable, r.spells c = false) ↔ ∃ why, decodeWord c = .error why := by
  cases hd : decodeWord c with
  | error why =>
    refine iff_of_true (fun r hr => Bool.eq_false_iff.mpr fun hspells => ?_) ⟨why, rfl⟩
    obtain ⟨i, hi, -⟩ := (spells_iff_decodes c r hr).mp hspells
    rw [hd] at hi; cases hi
  | ok i =>
    obtain ⟨r, hr, hname⟩ := exists_row_of_wf (encodeInstr_of_decodeWord hd).2
    have hspells := (spells_iff_decodes c r hr).mpr ⟨i, hd, hname⟩
    exact iff_of_false (fun hnone => by simp [hnone r hr] at hspells) (fun ⟨_, he⟩ => by cases he)

/-- Settles O6: two rows that a word meets have the mnemonic of the one instruction it decodes to. -/
theorem opcodeTableAgreesWithDecoder : Obligations.OpcodeTableAgreesWithDecoder := by
  refine fun c => ⟨spells_iff_decodes c, fun r hr r' hr' h h' => ?_, no_row_spells_iff c⟩
  obtain ⟨i, hi, hname⟩ := (spells_iff_decodes c r hr).mp h
  obtain ⟨i', hi', hname'⟩ := (spells_iff_decodes c r' hr').mp h'
  cases hi.symm.trans hi'
  exact opTable_eq_of_mnemonic_eq r hr r' hr' (hname.symm.trans hname')

/-- Settles O7: the ten words, each evaluated. -/
theorem wordsOfTheSpecDecode : Obligations.WordsOfTheSpecDecode := by
  unfold Obligations.WordsOfTheSpecDecode
  decide

end Sys2Proof
end

section
/-! PROOFS. What one step answers, and runs of lists of words, by `step_cases` (10_state.md R31; 30_encoding.md R76, R82;
60_exceptions.md R232). -/

namespace Sys2Proof.Machine

/-! ### One step -/

section NextWord
variable {s : State} {c : CmdWord} {rest : List CmdWord}

theorem step_of_error {why : DecodeError} (hp : s.pending = c :: rest) (hd : decodeWord c = .error why) :
    step s = .refused (.reservedWord why) := by
  simp only [step, State.nextWord_of_cons hp, hd]

theorem step_of_ok {i : Instr} (hp : s.pending = c :: rest) (hd : decodeWord c = .ok i) :
    step s = exec i { s with pending := rest } := by
  simp only [step, State.nextWord_of_cons hp, hd]

theorem step_of_nil (hp : s.pending = []) : step s = .next s := by
  simp only [step, State.nextWord_of_nil hp, idle]

end NextWord

/-- Settles O1: the arm of `step` for a word that decodes. -/
theorem stepRunsDecodedWord : Obligations.StepRunsDecodedWord :=
  fun _ _ _ _ hp hd => step_of_ok hp hd

/-- Settles O3: the arm of `step` for an exhausted list. -/
theorem stepWithNothingPresentedIsIdle : Obligations.StepWithNothingPresentedIsIdle :=
  fun _ hp => step_of_nil hp

/-- Settles O2: the decoder's answers by the number of the word, each with the step it leads to. -/
theorem stepRefusesExactlyReservedWords : Obligations.StepRefusesExactlyReservedWords := by
  intro s c rest hp
  rcases decodeWord_cases c with
    ⟨hop, hd⟩ | ⟨hop, hd⟩ | ⟨hlow, hop, hhigh, hd⟩ | ⟨hhigh, ⟨hop, hd⟩ | ⟨hop, hd⟩ | ⟨hop, hd⟩ | ⟨hop, hd⟩⟩
  case inr.inl =>
    exact ⟨fun _ => step_of_error hp hd, fun _ _ _ => by omega, fun _ => by omega⟩
  case inr.inr.inl =>
    exact ⟨fun _ => by omega, fun _ _ _ => step_of_error hp hd, fun _ => by omega⟩
  all_goals
    exact ⟨fun _ => by omega, fun _ _ _ => by omega, fun _ => ⟨_, (step_of_ok hp hd).trans (exec_eq _ _)⟩⟩

/-- A word has no result exactly when the decoder rejects it. -/
theorem resPort_eq_none_iff {c : CmdWord} : resPort c = none ↔ ∃ why, decodeWord c = .error why := by
  rw [resPort_eq]
  cases decodeWord c <;> simp [Except.toOption]

theorem resPort_eq_some_iff {c : CmdWord} {r : U32} :
    resPort c = some r ↔ ∃ i, decodeWord c = .ok i ∧ resultOf i = r := by
  rw [resPort_eq]
  cases decodeWord c <;> simp [Except.toOption]

section PortView
variable {s : State} {c : CmdWord} {rest : List CmdWord}

/-- A step reads what the port view shows. -/
theorem step_of_resPort {r : U32} (hp : s.pending = c :: rest) (hr : resPort c = some r) :
    step s = .next { pending := rest, results := s.results ++ [r] } := by
  obtain ⟨i, hd, rfl⟩ := resPort_eq_some_iff.mp hr
  exact (step_of_ok hp hd).trans (exec_eq _ _)

theorem step_of_resPort_none (hp : s.pending = c :: rest) (hr : resPort c = none) :
    ∃ why, step s = .refused (.reservedWord why) := by
  obtain ⟨why, hd⟩ := resPort_eq_none_iff.mp hr
  exact ⟨why, step_of_error hp hd⟩

end PortView

/-- Settles O9: the port view shows the result of the decoded instruction, and nothing where the decoder rejects the word. -/
theorem stepShowsTheSelectedUnitOutput : Obligations.StepShowsTheSelectedUnitOutput :=
  fun _ _ _ hp => ⟨fun _ hr => step_of_resPort hp hr, step_of_resPort_none hp⟩

/-- Settles O13: a step that answers next was idle, or moved one word to one result. -/
theorem stepOnlyAppendsResults : Obligations.StepOnlyAppendsResults := by
  intro s t h
  rcases step_next h with ⟨-, rfl⟩ | ⟨c, rest, i, hp, -, rfl⟩
  · exact ⟨List.prefix_rfl, List.suffix_rfl, rfl⟩
  · refine ⟨List.prefix_append _ _, hp ▸ List.suffix_cons c rest, ?_⟩
    simp only [hp, List.length_append, List.length_cons, List.length_nil]
    omega

/-! ### Runs -/

theorem run_succ_of_next {s t : State} (h : step s = .next t) (k : Nat) :
    Host.Core.run core (k + 1) s = Host.Core.run core k t := by
  have hcore : core.step s = .next t := h
  simp only [Host.Core.run, hcore]

theorem run_succ_of_refused {s : State} {why : Refusal} (h : step s = .refused why) (k : Nat) :
    Host.Core.run core (k + 1) s = .refused why := by
  have hcore : core.step s = .refused why := h
  simp only [Host.Core.run, hcore]

/-- An exhausted driver idles for any number of steps (log entry 2). -/
theorem run_of_nil {s : State} (hp : s.pending = []) (k : Nat) : Host.Core.run core k s = .next s := by
  induction k with
  | zero => rfl
  | succ k ih => rw [run_succ_of_next (step_of_nil hp), ih]

theorem runWords_cons_eq_some_iff {c : CmdWord} {cs : List CmdWord} {rs : List U32} :
    runWords (c :: cs) = some rs ↔ ∃ r rs', resPort c = some r ∧ runWords cs = some rs' ∧ rs = r :: rs' := by
  rw [runWords]
  cases resPort c <;> cases runWords cs <;> simp [eq_comm]

theorem runWords_cons_eq_none_iff {c : CmdWord} {cs : List CmdWord} :
    runWords (c :: cs) = none ↔ resPort c = none ∨ runWords cs = none := by
  rw [runWords]
  cases resPort c <;> cases runWords cs <;> simp

theorem run_of_runWords {cs : List CmdWord} {rs : List U32} (h : runWords cs = some rs) {k : Nat} (hk : cs.length ≤ k)
    (before : List U32) :
    Host.Core.run core k { pending := cs, results := before } = .next { pending := [], results := before ++ rs } := by
  induction cs generalizing rs k before with
  | nil =>
    cases h
    rw [List.append_nil]
    exact run_of_nil rfl k
  | cons c cs ih =>
    obtain ⟨r, rs', hr, hrs, rfl⟩ := runWords_cons_eq_some_iff.mp h
    obtain ⟨k, rfl⟩ := Nat.exists_eq_add_one_of_ne_zero (Nat.ne_zero_of_lt hk)
    rw [run_succ_of_next (step_of_resPort rfl hr), ih hrs (Nat.le_of_succ_le_succ hk), List.append_assoc]
    rfl

theorem run_of_runWords_none {cs : List CmdWord} (h : runWords cs = none) {k : Nat} (hk : cs.length ≤ k)
    (before : List U32) :
    ∃ why, Host.Core.run core k { pending := cs, results := before } = .refused (.reservedWord why) := by
  induction cs generalizing k before with
  | nil => cases h
  | cons c cs ih =>
    obtain ⟨k, rfl⟩ := Nat.exists_eq_add_one_of_ne_zero (Nat.ne_zero_of_lt hk)
    cases hr : resPort c with
    | none =>
      obtain ⟨why, hstep⟩ := step_of_resPort_none (s := { pending := c :: cs, results := before }) rfl hr
      exact ⟨why, run_succ_of_refused hstep k⟩
    | some r =>
      have hrest := (runWords_cons_eq_none_iff.mp h).resolve_left (by rw [hr]; exact Option.some_ne_none r)
      rw [run_succ_of_next (step_of_resPort rfl hr)]
      exact ih hrest (Nat.le_of_succ_le_succ hk) _

/-- Settles O10: by induction on the list, with any results read before. -/
theorem runIsTheListOfResultsOrRefused : Obligations.RunIsTheListOfResultsOrRefused :=
  fun _ => ⟨fun _ h _ hk before => run_of_runWords h hk before, fun h _ hk before => run_of_runWords_none h hk before⟩

/-! ### Safety -/

theorem command_wf_eq_false_iff {c : CmdWord} : (CmdWord.command c).wf = false ↔ resPort c = none := by
  rw [resPort]
  cases (CmdWord.command c).wf <;> simp

/-- A list of words has results exactly when no word of it is reserved. -/
theorem runWords_eq_none_iff {cs : List CmdWord} :
    runWords cs = none ↔ cs.all (fun c => (CmdWord.command c).wf) = false := by
  induction cs with
  | nil => simp [runWords]
  | cons c cs ih => rw [runWords_cons_eq_none_iff, List.all_cons, Bool.and_eq_false_iff, command_wf_eq_false_iff, ih]

/-- No step from a state of legal words is refused, and the words left after it are legal. -/
theorem safeRun_of_allLegal {s : State} (h : allLegal s = true) : SafeRun s := by
  intro k
  induction k generalizing s with
  | zero => exact fun r hr => by cases hr
  | succ k ih =>
    rcases step_cases s with ⟨hp, hstep⟩ | ⟨c, rest, why, hp, hd, hstep⟩ | ⟨c, rest, i, hp, hd, hstep⟩
    · rw [run_succ_of_next hstep]
      exact ih h
    · have hreserved := command_wf_eq_false_iff.mpr (resPort_eq_none_iff.mpr ⟨why, hd⟩)
      simp [allLegal, hp, hreserved] at h
    · rw [run_succ_of_next hstep]
      rw [allLegal, hp, List.all_cons, Bool.and_eq_true] at h
      exact ih h.2

/-- Settles O11: with a reserved word among them, as many steps as words are refused. -/
theorem runIsSafeIffEveryWordIsLegal : Obligations.RunIsSafeIffEveryWordIsLegal := by
  refine fun s => ⟨fun hsafe => ?_, safeRun_of_allLegal⟩
  by_contra hreserved
  have hnone := runWords_eq_none_iff.mpr (Bool.eq_false_iff.mpr hreserved)
  obtain ⟨why, hrun⟩ := run_of_runWords_none hnone le_rfl s.results
  exact hsafe _ _ hrun

end Sys2Proof.Machine
end

section
/-! PROOFS. The image of `DECODE` by the fields of its result, and the invariant on results that follows from it
(41_decode.md R152; 30_encoding.md R75; 42_classify.md R167). -/

namespace Sys2Proof.Machine

/-! ### The fields of an expanded pattern -/

/-- R143: the fields of an expanded subnormal with leading one at index `p`. -/
theorem Codec.decode_subnormal_fields {h : U16} {p : Nat} (he : Half.exp h = 0) (hp : p ≤ 9) (hlow : 2 ^ p ≤ Half.sig h)
    (hhigh : Half.sig h < 2 ^ (p + 1)) :
    Single.exp (Codec.decode h) = 103 + p ∧
      Single.sig (Codec.decode h) = (Half.sig h * 2 ^ (10 - p) - 2 ^ 10) * 2 ^ 13 := by
  have hnormalized := mul_two_pow_sub_lt (n := 10) (by omega) hhigh
  exact Single.fields_of_toNat (Codec.decode_subnormal he hlow hhigh) (by omega) (by omega)

/-- R144: the fields of an expanded infinity or NaN. -/
theorem Codec.decode_infinity_nan_fields {h : U16} (he : Half.exp h = 31) :
    Single.exp (Codec.decode h) = 255 ∧ Single.sig (Codec.decode h) = Half.sig h * 2 ^ 13 := by
  have hsig := Half.sig_lt h
  have hnumber : (Codec.decode h).toNat = Half.sign h * 2 ^ 31 + 255 * 2 ^ 23 + Half.sig h * 2 ^ 13 :=
    Codec.decode_infinity_nan he
  exact Single.fields_of_toNat hnumber (by omega) (by omega)

/-- Everything `decode` can answer, field by field: zero, subnormal, normal, and the all-ones exponent (R140). -/
theorem Codec.decode_cases (h : U16) :
    (Half.exp h = 0 ∧ Half.sig h = 0 ∧ Single.exp (Codec.decode h) = 0 ∧ Single.sig (Codec.decode h) = 0) ∨
    (∃ p, p ≤ 9 ∧ Half.exp h = 0 ∧ 2 ^ p ≤ Half.sig h ∧ Half.sig h < 2 ^ (p + 1) ∧
      Single.exp (Codec.decode h) = 103 + p ∧
      Single.sig (Codec.decode h) = (Half.sig h * 2 ^ (10 - p) - 2 ^ 10) * 2 ^ 13) ∨
    (1 ≤ Half.exp h ∧ Half.exp h ≤ 30 ∧
      Single.exp (Codec.decode h) = Half.exp h + 112 ∧ Single.sig (Codec.decode h) = Half.sig h * 2 ^ 13) ∨
    (Half.exp h = 31 ∧ Single.exp (Codec.decode h) = 255 ∧ Single.sig (Codec.decode h) = Half.sig h * 2 ^ 13) := by
  have hsig := Half.sig_lt h
  have hexp := Half.exp_le h
  by_cases hzero : Half.exp h = 0
  · by_cases hs : Half.sig h = 0
    · have hnumber : (Codec.decode h).toNat = Half.sign h * 2 ^ 31 + 0 * 2 ^ 23 + 0 := by
        rw [Codec.decode_zero hzero hs]; omega
      exact .inl ⟨hzero, hs, Single.fields_of_toNat hnumber (by omega) (by omega)⟩
    · obtain ⟨p, hp, hlow, hhigh⟩ := Half.exists_leading_one hs
      exact .inr (.inl ⟨p, hp, hzero, hlow, hhigh, Codec.decode_subnormal_fields hzero hp hlow hhigh⟩)
  · by_cases htop : Half.exp h = 31
    · exact .inr (.inr (.inr ⟨htop, Codec.decode_infinity_nan_fields htop⟩))
    · have hnumber := Codec.decode_normal_fields (h := h) (by omega) (by omega)
      exact .inr (.inr (.inl ⟨by omega, by omega, Single.fields_of_toNat hnumber (by omega) (by omega)⟩))

theorem Single.low_bits_eq_zero {f : U32} (h : Single.sig f % 2 ^ 13 = 0) : f.extractLsb' 0 13 = 0#13 := by
  apply BitVec.eq_of_toNat_eq
  rw [Single.sig_eq] at h
  rw [BitVec.extractLsb'_toNat, Nat.shiftRight_zero, BitVec.toNat_ofNat]
  omega

/-- R152. -/
theorem Codec.decode_image (h : U16) :
    (Codec.decode h).extractLsb' 0 13 = 0#13 ∧
    ((Single.exp (Codec.decode h) = 0 ∧ Single.sig (Codec.decode h) = 0 ∧ Half.mag h = 0) ∨
      (103 ≤ Single.exp (Codec.decode h) ∧ Single.exp (Codec.decode h) ≤ 142) ∨
      Single.exp (Codec.decode h) = 255) := by
  have hmag := Half.mag_fields h
  rcases Codec.decode_cases h with
    ⟨_, _, he, hs⟩ | ⟨p, hp, _, _, _, he, hs⟩ | ⟨hlow, hhigh, he, hs⟩ | ⟨_, he, hs⟩ <;>
    exact ⟨Single.low_bits_eq_zero (by omega), by omega⟩

/-- Settles O35: read off the fields of the four branches. -/
theorem decodeImageHasLowBitsZero : Obligations.DecodeImageHasLowBitsZero :=
  Codec.decode_image

/-! ### The invariant -/

theorem possibleResult_of_high_zero {r : U32} (h : r.extractLsb' 16 16 = 0#16) : possibleResult r = true := by
  simp [possibleResult, h]

theorem possibleResult_decode (h : U16) : possibleResult (Codec.decode h) = true := by
  obtain ⟨hlow, hfields⟩ := Codec.decode_image h
  rcases hfields with ⟨he, hs, _⟩ | ⟨hge, hle⟩ | he
  · simp [possibleResult, hlow, he, hs]
  · simp [possibleResult, hlow, hge, hle]
  · simp [possibleResult, hlow, he]

/-- A result extended with zeros has a zero upper half (R75). -/
theorem high_zext32 {n : Nat} (hn : n ≤ 16) (v : BitVec n) : (zext32 v).extractLsb' 16 16 = 0#16 := by
  have hlt := Nat.lt_of_lt_of_le v.isLt (Nat.pow_le_pow_right (by decide) hn)
  apply BitVec.eq_of_toNat_eq
  rw [BitVec.extractLsb'_toNat, BitVec.toNat_setWidth, Nat.shiftRight_eq_div_pow, BitVec.toNat_ofNat]
  omega

theorem high_resOfHalf (h : U16) : (resOfHalf h).extractLsb' 16 16 = 0#16 := high_zext32 le_rfl h

theorem high_resOfBit (p : U1) : (resOfBit p).extractLsb' 16 16 = 0#16 := high_zext32 (by decide) p

/-- Every operation's result is a possible one: 16 bits or one bit with zeros above, or in the image of `decode`. -/
theorem possibleResult_resultOf (i : Instr) : possibleResult (resultOf i) = true := by
  cases i with
  | encode f | toHalf f => exact possibleResult_of_high_zero (high_resOfHalf _)
  | decode h | toFloat h => exact possibleResult_decode h
  | isNaN h | isInf h | isFinite h => exact possibleResult_of_high_zero (high_resOfBit _)

theorem resultsPossible_append {s : State} {rest : List CmdWord} {r : U32} (hs : ResultsPossible s)
    (hr : possibleResult r = true) : ResultsPossible { pending := rest, results := s.results ++ [r] } := by
  intro r' hr'
  rcases List.mem_append.mp hr' with hold | hnew
  · exact hs r' hold
  · rw [List.mem_singleton.mp hnew]
    exact hr

/-- Settles O14: an idle step reads nothing, any other step reads the result of one instruction. -/
theorem stepKeepsResultsPossible : Obligations.StepKeepsResultsPossible := by
  intro s t hs hstep
  rcases step_next hstep with ⟨-, rfl⟩ | ⟨c, rest, i, -, -, rfl⟩
  · exact hs
  · exact resultsPossible_append hs (possibleResult_resultOf i)

/-- Settles O15: no result has been read at reset. -/
theorem resetResultsPossible : Obligations.ResetResultsPossible :=
  ⟨fun _ hr => absurd hr List.not_mem_nil, State.reset_results, State.reset_pending⟩

/-! ### The classifier and the image -/

/-- Settles O42: the all-ones exponent field and a zero or nonzero significand field go over to the expanded pattern. -/
theorem classifierAgreesWithExpandedClass : Obligations.ClassifierAgreesWithExpandedClass := by
  intro h
  rw [Codec.isNaN_iff, Codec.isInf_iff, Codec.isFinite_iff, Half.mag_fields, Single.fpClass, classOf_eq_nan_iff,
    classOf_eq_infinity_iff]
  have hsig := Half.sig_lt h
  rcases Codec.decode_cases h with
    ⟨_, _, he, hs⟩ | ⟨p, hp, _, _, _, he, hs⟩ | ⟨hlow, hhigh, he, hs⟩ | ⟨_, he, hs⟩ <;>
    omega

/-- A 16-bit NaN by its fields (R63). -/
theorem Half.fpClass_eq_nan_iff (h : U16) : Half.fpClass h = .nan ↔ Half.exp h = 31 ∧ Half.sig h ≠ 0 := by
  rw [Half.fpClass, classOf_eq_nan_iff]
  omega

/-- A 16-bit infinity by its magnitude pattern (R63). -/
theorem Half.fpClass_eq_infinity_iff (h : U16) : Half.fpClass h = .infinity ↔ Half.mag h = 0x7c00 := by
  have hsig := Half.sig_lt h
  rw [Half.fpClass, classOf_eq_infinity_iff, Half.mag_fields]
  omega

/-- Settles O40: the words of the three predicates by class; the classes are told apart by the fields. -/
theorem classifierIsOneHotByClass : Obligations.ClassifierIsOneHotByClass := by
  intro h
  have hnan := (Codec.isNaN_iff h).trans (Half.fpClass_eq_nan_iff h).symm
  have hinf := (Codec.isInf_iff h).trans (Half.fpClass_eq_infinity_iff h).symm
  have hfin : Codec.isFinite h = 1#1 ↔ ¬(Half.fpClass h = .nan ∨ Half.fpClass h = .infinity) := by
    have hsig := Half.sig_lt h
    rw [Codec.isFinite_iff, Half.fpClass_eq_nan_iff, Half.fpClass_eq_infinity_iff, Half.mag_fields]
    omega
  refine ⟨_, _, _, fun s => ⟨exec_of_bit rfl hnan s, exec_of_bit rfl hinf s, exec_of_bit rfl hfin s⟩, ?_⟩
  cases Half.fpClass h <;> decide

end Sys2Proof.Machine
end

section
/-! PROOFS. The assembler reads back what the printer writes (30_encoding.md R80, R81). -/

namespace Sys2Proof.Machine

/-! ### Hexadecimal digits -/

theorem Asm.hexDigit_spec : ∀ d < 16,
    Asm.hexValue (Asm.hexDigit d) = some d ∧ Asm.hexDigit d ≠ ' ' ∧ Asm.hexDigit d ≠ ';' := by decide

@[simp] theorem Asm.length_hexDigits (k v : Nat) : (Asm.hexDigits k v).length = k := by
  induction k generalizing v with
  | zero => rfl
  | succ k ih => rw [Asm.hexDigits, List.length_append, ih, List.length_singleton]

theorem Asm.readHex_append (acc : Nat) (xs ys : List Char) :
    Asm.readHex acc (xs ++ ys) = (Asm.readHex acc xs).bind (fun n => Asm.readHex n ys) := by
  induction xs generalizing acc with
  | nil => rfl
  | cons x xs ih =>
    rw [List.cons_append, Asm.readHex, Asm.readHex]
    cases Asm.hexValue x with
    | none => rfl
    | some d => exact ih _

/-- Reading `k` printed digits appends the low `k` digits of the number to what was read before. -/
theorem Asm.readHex_hexDigits (acc k v : Nat) :
    Asm.readHex acc (Asm.hexDigits k v) = some (acc * 16 ^ k + v % 16 ^ k) := by
  induction k generalizing v with
  | zero => simp [Asm.hexDigits, Asm.readHex, Nat.mod_one]
  | succ k ih =>
    obtain ⟨hdigit, -, -⟩ := Asm.hexDigit_spec (v % 16) (Nat.mod_lt v (by decide))
    have hsplit : v % 16 ^ (k + 1) = v % 16 + 16 * (v / 16 % 16 ^ k) := by rw [Nat.pow_succ', Nat.mod_mul]
    have hacc : acc * 16 ^ (k + 1) = 16 * (acc * 16 ^ k) := by rw [Nat.pow_succ]; ring
    rw [Asm.hexDigits, Asm.readHex_append, ih, Option.bind_some, Asm.readHex, hdigit, hsplit, hacc]
    exact congrArg some (by omega)

/-- An operand printed with as many digits as it has is read back. -/
theorem Asm.readOperand_hexDigits {k v : Nat} (hv : v < 16 ^ k) :
    Asm.readOperand k ('0' :: 'x' :: Asm.hexDigits k v) = some v := by
  simp [Asm.readOperand, Asm.readHex_hexDigits, Nat.mod_eq_of_lt hv]

theorem Asm.readOperand_single (f : U32) : Asm.readOperand 8 ('0' :: 'x' :: Asm.hexDigits 8 f.toNat) = some f.toNat :=
  Asm.readOperand_hexDigits f.isLt

theorem Asm.readOperand_half (h : U16) : Asm.readOperand 4 ('0' :: 'x' :: Asm.hexDigits 4 h.toNat) = some h.toNat :=
  Asm.readOperand_hexDigits h.isLt

/-- Mnemonic and operand text of an instruction spell it. -/
theorem Asm.readInstr_operandText (i : Instr) : Asm.readInstr i.mnemonic.toList (Asm.operandText i) = some i := by
  cases i <;> simp [Asm.readInstr, Instr.mnemonic, Asm.operandText, Asm.readOperand_single, Asm.readOperand_half]

/-! ### The characters of a printed line -/

/-- A character that neither separates the parts of a line nor starts a comment. -/
abbrev Asm.Plain (c : Char) : Prop := c ≠ ' ' ∧ c ≠ ';'

theorem Asm.plain_hexDigits {k v : Nat} {c : Char} (hc : c ∈ Asm.hexDigits k v) : Asm.Plain c := by
  induction k generalizing v with
  | zero => cases hc
  | succ k ih =>
    rw [Asm.hexDigits, List.mem_append, List.mem_singleton] at hc
    rcases hc with hc | rfl
    · exact ih hc
    · exact (Asm.hexDigit_spec _ (Nat.mod_lt v (by decide))).2

theorem Asm.plain_mnemonic (i : Instr) : ∀ c ∈ i.mnemonic.toList, Asm.Plain c := by
  cases i <;> simp [Instr.mnemonic, Asm.Plain]

/-- The operand text is `0x` and digits. -/
theorem Asm.operandText_eq (i : Instr) : ∃ k v, Asm.operandText i = '0' :: 'x' :: Asm.hexDigits k v := by
  cases i <;> exact ⟨_, _, rfl⟩

theorem Asm.plain_operandText (i : Instr) : ∀ c ∈ Asm.operandText i, Asm.Plain c := by
  obtain ⟨k, v, htext⟩ := Asm.operandText_eq i
  rw [htext, List.forall_mem_cons, List.forall_mem_cons]
  exact ⟨by decide, by decide, fun _ => Asm.plain_hexDigits⟩

/-! ### Splitting a line -/

section Line
variable {mnemonic operand : List Char} (hm : ∀ c ∈ mnemonic, Asm.Plain c) (ho : ∀ c ∈ operand, Asm.Plain c)
  (hne : operand ≠ [])
include hm ho hne

/-- Blanks and a comment behind mnemonic and operand are taken off. -/
theorem Asm.code_append {tail : List Char} (n : Nat) (htail : tail.takeWhile (fun c => c != ';') = []) :
    Asm.code (mnemonic ++ ' ' :: operand ++ List.replicate n ' ' ++ tail) = mnemonic ++ ' ' :: operand := by
  have hline : ∀ c ∈ mnemonic ++ ' ' :: operand ++ List.replicate n ' ', (c != ';') = true := by
    simp only [List.mem_append, List.mem_cons, List.mem_replicate, bne_iff_ne]
    rintro c ((hc | rfl | hc) | ⟨-, rfl⟩)
    · exact (hm c hc).2
    · decide
    · exact (ho c hc).2
    · decide
  obtain ⟨init, last, rfl⟩ := (List.eq_nil_or_concat' operand).resolve_left hne
  have hlast : (last == ' ') = false := beq_eq_false_iff_ne.mpr (ho last (by simp)).1
  rw [Asm.code, List.takeWhile_append_of_pos hline, htail, List.append_nil]
  simp [List.dropWhile_append_of_pos, hlast]

theorem Asm.readLine_of_code {line : List Char} (hcode : Asm.code line = mnemonic ++ ' ' :: operand) :
    Asm.readLine line = Asm.readInstr mnemonic operand := by
  have hword : ∀ c ∈ mnemonic, Asm.notBlank c = true := fun c hc => bne_iff_ne.mpr (hm c hc).1
  obtain ⟨first, rest, rfl⟩ := List.exists_cons_of_ne_nil hne
  have hfirst : (first == ' ') = false := beq_eq_false_iff_ne.mpr (ho first List.mem_cons_self).1
  rw [Asm.readLine, hcode, List.takeWhile_append_of_pos hword, List.dropWhile_append_of_pos hword]
  simp [Asm.notBlank, hfirst]

end Line

theorem Asm.readLine_printLine_append (i : Instr) {tail : List Char} (n : Nat)
    (htail : tail.takeWhile (fun c => c != ';') = []) :
    Asm.readLine (Asm.printLine i ++ List.replicate n ' ' ++ tail) = some i := by
  have hm := Asm.plain_mnemonic i
  have ho := Asm.plain_operandText i
  have hne : Asm.operandText i ≠ [] := by
    obtain ⟨k, v, htext⟩ := Asm.operandText_eq i
    rw [htext]
    exact List.cons_ne_nil _ _
  rw [Asm.printLine, Asm.readLine_of_code hm ho hne (Asm.code_append hm ho hne n htail), Asm.readInstr_operandText]

theorem Asm.readLine_printLine (i : Instr) : Asm.readLine (Asm.printLine i) = some i := by
  simpa using Asm.readLine_printLine_append i (tail := []) 0 rfl

/-- Settles O8: a printed line with nothing, or with blanks and a comment, behind it; the assembler then encodes what it read,
and the disassembler prints what the word decodes to. -/
theorem assemblyReadsBackPrintedLines : Obligations.AssemblyReadsBackPrintedLines := by
  refine fun i n comment => ⟨Asm.readLine_printLine i, Asm.readLine_printLine_append i n rfl, ?_, ?_⟩
  · rw [Asm.assemble, Asm.readLine_printLine, Option.map_some]
  · rw [Asm.disassemble, decodeWord_encodeInstr, Except.toOption, Option.map_some]

end Sys2Proof.Machine
end

section
/-! PROOFS. Magnitudes as whole numbers: the magnitude of a pattern in units of 2^-149, the smallest single subnormal, grows with
the pattern (30_encoding.md R64); the rounding step of 40_encode.md R113 on numbers. -/

namespace Sys2Proof.Machine

/-! ### The magnitude of a pattern -/

/-- The magnitude of the pattern `n` of a format with `p` significand bits, in units of the format's smallest subnormal. -/
def patternMagnitude (p n : Nat) : Nat := scaledMagnitude p (n / 2 ^ p) (n % 2 ^ p)

theorem patternMagnitude_fields {p e m : Nat} (hm : m < 2 ^ p) : patternMagnitude p (e * 2 ^ p + m) = scaledMagnitude p e m := by
  rw [patternMagnitude, Nat.mul_comm, Nat.mul_add_div (Nat.two_pow_pos p), Nat.div_eq_of_lt hm, Nat.add_zero,
    Nat.mul_add_mod, Nat.mod_eq_of_lt hm]

theorem scaledMagnitude_zero_exp (p m : Nat) : scaledMagnitude p 0 m = m := rfl

theorem scaledMagnitude_succ_exp (p e m : Nat) : scaledMagnitude p (e + 1) m = (2 ^ p + m) * 2 ^ e := rfl

theorem scaledMagnitude_lt_succ_sig (p e m : Nat) : scaledMagnitude p e m < scaledMagnitude p e (m + 1) := by
  cases e with
  | zero => exact Nat.lt_succ_self m
  | succ e => exact Nat.mul_lt_mul_of_pos_right (Nat.lt_succ_self _) (Nat.two_pow_pos e)

/-- From the last significand of an exponent field to the first of the next. -/
theorem scaledMagnitude_lt_succ_exp {p m : Nat} (e : Nat) (hm : m < 2 ^ p) :
    scaledMagnitude p e m < scaledMagnitude p (e + 1) 0 := by
  rw [scaledMagnitude_succ_exp]
  cases e with
  | zero => simpa [scaledMagnitude_zero_exp] using hm
  | succ e =>
    calc (2 ^ p + m) * 2 ^ e < (2 ^ p + 2 ^ p) * 2 ^ e := Nat.mul_lt_mul_of_pos_right (by omega) (Nat.two_pow_pos e)
      _ = (2 ^ p + 0) * 2 ^ (e + 1) := by ring

/-- A larger pattern is a larger magnitude. -/
theorem patternMagnitude_strictMono (p : Nat) : StrictMono (patternMagnitude p) := by
  refine strictMono_nat_of_lt_succ fun n => ?_
  have hm : n % 2 ^ p < 2 ^ p := Nat.mod_lt n (Nat.two_pow_pos p)
  have hn : n = n / 2 ^ p * 2 ^ p + n % 2 ^ p := (Nat.div_add_mod' n _).symm
  generalize n / 2 ^ p = e, n % 2 ^ p = m at hm hn
  rw [hn, patternMagnitude_fields hm]
  by_cases hcarry : m + 1 = 2 ^ p
  · have hnext : e * 2 ^ p + m + 1 = (e + 1) * 2 ^ p + 0 := by rw [Nat.add_mul]; omega
    rw [hnext, patternMagnitude_fields (Nat.two_pow_pos p)]
    exact scaledMagnitude_lt_succ_exp e hm
  · rw [Nat.add_assoc, patternMagnitude_fields (by omega)]
    exact scaledMagnitude_lt_succ_sig p e m

theorem patternMagnitude_lt_iff {p a b : Nat} : patternMagnitude p a < patternMagnitude p b ↔ a < b :=
  (patternMagnitude_strictMono p).lt_iff_lt

/-- The exponent field bounds the magnitude by powers of two. -/
theorem scaledMagnitude_lt_iff {p e m : Nat} (a : Nat) (hm : m < 2 ^ p) : scaledMagnitude p e m < 2 ^ (p + a) ↔ e ≤ a := by
  have hpower : 2 ^ (p + a) = patternMagnitude p ((a + 1) * 2 ^ p + 0) := by
    rw [patternMagnitude_fields (Nat.two_pow_pos p), scaledMagnitude_succ_exp, Nat.add_zero, Nat.pow_add]
  rw [hpower, ← patternMagnitude_fields hm, patternMagnitude_lt_iff, Nat.add_zero, ← exp_lt_iff_mag_lt _ hm, Nat.lt_succ_iff]

/-- A number `n` of the last kept place of a binade, `2 ^ E` units each, is the pattern `n` above the binade's base; the number
just past the binade included. -/
theorem patternMagnitude_add {p E n : Nat} (hlow : E = 0 ∨ 2 ^ p ≤ n) (hhigh : n ≤ 2 ^ (p + 1)) :
    patternMagnitude p (E * 2 ^ p + n) = n * 2 ^ E := by
  have hpos := Nat.two_pow_pos p
  have hpow : 2 ^ (p + 1) = 2 * 2 ^ p := Nat.pow_succ'
  by_cases hsub : n < 2 ^ p
  · obtain rfl := hlow.resolve_right (by omega)
    rw [patternMagnitude_fields hsub, scaledMagnitude_zero_exp, Nat.pow_zero, Nat.mul_one]
  · obtain ⟨m, rfl⟩ := Nat.exists_eq_add_of_le (Nat.le_of_not_lt hsub)
    by_cases htop : m = 2 ^ p
    · have hcarry : E * 2 ^ p + (2 ^ p + m) = (E + 1 + 1) * 2 ^ p + 0 := by rw [htop]; ring
      rw [hcarry, patternMagnitude_fields hpos, scaledMagnitude_succ_exp, htop]
      ring
    · have hfields : E * 2 ^ p + (2 ^ p + m) = (E + 1) * 2 ^ p + m := by ring
      rw [hfields, patternMagnitude_fields (by omega), scaledMagnitude_succ_exp]

/-- The magnitude of a single pattern in units of 2^-149. -/
def Single.units (f : U32) : Nat := patternMagnitude 23 (Single.mag f)

/-- The magnitude of the half pattern `c` without sign in units of 2^-149, `0x7c00` standing for 2^16. -/
def Half.units (c : Nat) : Nat := patternMagnitude 10 c * 2 ^ 125

theorem Single.units_eq (f : U32) : Single.units f = scaledMagnitude 23 (Single.exp f) (Single.sig f) := by
  rw [Single.units, Single.mag_fields, patternMagnitude_fields (Single.sig_lt f)]

theorem Single.units_lt_iff {f g : U32} : Single.units f < Single.units g ↔ Single.mag f < Single.mag g :=
  patternMagnitude_lt_iff

theorem Single.units_lt_two_pow_iff (f : U32) (a : Nat) : Single.units f < 2 ^ (23 + a) ↔ Single.exp f ≤ a := by
  rw [Single.units_eq, scaledMagnitude_lt_iff a (Single.sig_lt f)]

theorem Half.units_strictMono : StrictMono Half.units :=
  (patternMagnitude_strictMono 10).mul_const (Nat.two_pow_pos 125)

theorem Half.units_add {E n : Nat} (hlow : E = 0 ∨ 2 ^ 10 ≤ n) (hhigh : n ≤ 2 ^ 11) :
    Half.units (E * 2 ^ 10 + n) = n * 2 ^ (125 + E) := by
  rw [Half.units, patternMagnitude_add hlow hhigh, Nat.mul_assoc, ← Nat.pow_add, Nat.add_comm]

/-! ### The rounding step -/

/-- Rounding does not see zeros below the bits it drops. -/
theorem roundNat_mul_two_pow (t : Config.TieRule) (S j : Nat) {k : Nat} (hk : 1 ≤ k) :
    roundNat t (S * 2 ^ j) (k + j) = roundNat t S k := by
  have hj := Nat.two_pow_pos j
  have hhalf : k + j - 1 = k - 1 + j := by omega
  cases t <;>
    simp only [roundNat, hhalf, Nat.pow_add, Nat.mul_div_mul_right _ _ hj, Nat.mul_mod_mul_right,
      Nat.mul_le_mul_right_iff hj, Nat.mul_lt_mul_right hj, Nat.mul_left_inj hj.ne']

theorem roundNat_mono (t : Config.TieRule) {S S' : Nat} (k : Nat) (h : S ≤ S') : roundNat t S k ≤ roundNat t S' k := by
  have hdiv : S / 2 ^ k ≤ S' / 2 ^ k := Nat.div_le_div_right h
  rcases Nat.lt_or_eq_of_le hdiv with hlt | heq
  · calc roundNat t S k ≤ S / 2 ^ k + 1 := roundNat_le t S k
      _ ≤ S' / 2 ^ k := hlt
      _ ≤ roundNat t S' k := le_roundNat t S' k
  · have hmod : S % 2 ^ k ≤ S' % 2 ^ k := by
      have hS := Nat.div_add_mod S (2 ^ k)
      have hS' := Nat.div_add_mod S' (2 ^ k)
      rw [heq] at hS
      omega
    cases t <;> simp only [roundNat, heq] <;> split_ifs <;> omega

/-- Less than half of the last kept place rounds to nothing. -/
theorem roundNat_eq_zero (t : Config.TieRule) {S k : Nat} (hS : S < 2 ^ (k - 1)) : roundNat t S k = 0 := by
  have hlt : S < 2 ^ k := Nat.lt_of_lt_of_le hS (Nat.pow_le_pow_right (by decide) (Nat.sub_le k 1))
  cases t <;> simp only [roundNat, Nat.div_eq_of_lt hlt, Nat.mod_eq_of_lt hlt] <;> split_ifs <;> omega

/-- The implicit leading one of the regular case goes through the rounding step. -/
theorem roundNat_implicit_one (t : Config.TieRule) (S : Nat) : roundNat t (2 ^ 23 + S) 13 = 2 ^ 10 + roundNat t S 13 := by
  have hdiv : (2 ^ 23 + S) / 2 ^ 13 = 2 ^ 10 + S / 2 ^ 13 := by omega
  have hmod : (2 ^ 23 + S) % 2 ^ 13 = S % 2 ^ 13 := by omega
  have hodd : (2 ^ 10 + S / 2 ^ 13) % 2 = S / 2 ^ 13 % 2 := by omega
  cases t <;> simp only [roundNat, hdiv, hmod, hodd, Nat.add_assoc]

end Sys2Proof.Machine
end

section
/-! PROOFS. The magnitude of the result of `ENCODE`, under either tie rule: the rounded quotient of the operand's magnitude by
the last place of its binade, in every path of 40_encode.md R102 but the overflow and the NaN; it is monotone (45_properties.md
R190), so its values on a range are known from those at the ends. -/

namespace Sys2Proof.Machine

theorem Half.mag_of_toNat {h : U16} {sign n : Nat} (hh : h.toNat = sign * 2 ^ 15 + n) (hn : n < 2 ^ 15) :
    Half.mag h = n := by
  rw [Half.mag_eq, hh]
  omega

/-! ### By path -/

/-- The binade of an operand above those whose results are subnormal: the last place kept is `2 ^ (125 + binade)` units. -/
def Single.binade (f : U32) : Nat := Single.exp f - 113

/-- The operand's magnitude in last places, before rounding: eleven bits, the leading one among them from the second binade on. -/
theorem Single.quotient_bounds (f : U32) :
    Single.units f / 2 ^ (125 + Single.binade f) < 2 ^ 11 ∧
      (Single.binade f = 0 ∨ 2 ^ 10 ≤ Single.units f / 2 ^ (125 + Single.binade f)) := by
  have hplace := Nat.two_pow_pos (125 + Single.binade f)
  constructor
  · have hhigh := (Single.units_lt_two_pow_iff f (113 + Single.binade f)).mpr (by rw [Single.binade]; omega)
    rw [Nat.div_lt_iff_lt_mul hplace, ← Nat.pow_add]
    convert hhigh using 2
    omega
  · by_cases hzero : Single.binade f = 0
    · exact .inl hzero
    · have hlow := mt (Single.units_lt_two_pow_iff f (112 + Single.binade f)).mp (by rw [Single.binade] at *; omega)
      right
      rw [Nat.le_div_iff_mul_le hplace, ← Nat.pow_add]
      convert Nat.le_of_not_lt hlow using 2
      omega

/-- The subnormal path and the regular case in one equation, the zero path included: there the magnitude rounds to zero. -/
theorem Half.mag_encodeBy_finite (t : Config.TieRule) {f : U32} (he : Single.exp f ≤ 142) :
    Half.mag (Codec.encodeBy t f) =
      Single.binade f * 2 ^ 10 + roundNat t (Single.units f) (125 + Single.binade f) := by
  have hsig := Single.sig_lt f
  by_cases hzero : Single.exp f ≤ 101
  · have hunits : Single.units f < 2 ^ 124 := (Single.units_lt_two_pow_iff f 101).mpr hzero
    have hbinade : Single.binade f = 0 := by rw [Single.binade]; omega
    rw [hbinade, roundNat_eq_zero t hunits, Nat.zero_mul, Nat.add_zero]
    exact Half.mag_of_toNat ((Codec.encodeBy_zero t hzero).trans (Nat.add_zero _).symm) (Nat.two_pow_pos 15)
  obtain ⟨e, hexp⟩ := Nat.exists_eq_add_one_of_ne_zero (n := Single.exp f) (by omega)
  have hunits : Single.units f = (2 ^ 23 + Single.sig f) * 2 ^ e := by
    rw [Single.units_eq, hexp, scaledMagnitude_succ_exp]
  by_cases hsub : Single.exp f ≤ 112
  · have hbinade : Single.binade f = 0 := by rw [Single.binade]; omega
    have hplace : 125 + Single.binade f = 126 - Single.exp f + e := by omega
    have hround := roundNat_subnormal_le t f (k := 126 - Single.exp f) (by omega)
    rw [hplace, hbinade, hunits, roundNat_mul_two_pow t _ _ (by omega), Nat.zero_mul, Nat.zero_add]
    exact Half.mag_of_toNat (Codec.encodeBy_subnormal t (by omega) hsub) (by omega)
  · have hplace : 125 + Single.binade f = 13 + e := by rw [Single.binade]; omega
    have hround := roundNat_le t (Single.sig f) 13
    rw [hplace, hunits, roundNat_mul_two_pow t _ _ (by decide), roundNat_implicit_one]
    refine Half.mag_of_toNat (sign := Single.sign f) ?_ (by rw [Single.binade]; omega)
    rw [Codec.encodeBy_regular t (by omega) he, Single.binade]
    omega

theorem Half.mag_encodeBy_overflow (t : Config.TieRule) {f : U32} (he : 143 ≤ Single.exp f)
    (hinf : Single.mag f ≤ 0x7f800000) : Half.mag (Codec.encodeBy t f) = 0x7c00 := by
  rw [Single.mag_fields] at hinf
  exact Half.mag_of_toNat (Codec.encodeBy_overflow t he (by omega)) (by decide)

theorem Half.mag_encodeBy_nan (t : Config.TieRule) {f : U32} (hnan : 0x7f800000 < Single.mag f) :
    Half.mag (Codec.encodeBy t f) = 0x7c00 + Single.halfPayload f := by
  have hsig := Single.sig_lt f
  have hexp := Single.exp_le f
  obtain ⟨-, hpayload⟩ := Single.halfPayload_bounds f
  rw [Single.mag_fields] at hnan
  exact Half.mag_of_toNat (Codec.encodeBy_nan t (by omega) (by omega)) (by omega)

/-- Rounding a quotient of eleven bits stays within the next binade. -/
theorem Single.round_le (t : Config.TieRule) (f : U32) : roundNat t (Single.units f) (125 + Single.binade f) ≤ 2 ^ 11 :=
  (roundNat_le t _ _).trans (Single.quotient_bounds f).1

/-! ### Monotone -/

/-- R190: within a binade rounding is monotone, and a binade's results end where the next one's begin. -/
theorem Half.mag_encodeBy_mono (t : Config.TieRule) {f g : U32} (hg : Single.mag g ≤ 0x7f800000)
    (hle : Single.mag f ≤ Single.mag g) : Half.mag (Codec.encodeBy t f) ≤ Half.mag (Codec.encodeBy t g) := by
  have hroundf := Single.round_le t f
  have hexp : Single.exp f ≤ Single.exp g := by
    rw [Single.exp_eq, Single.exp_eq]
    rw [Single.mag_eq, Single.mag_eq] at hle
    omega
  by_cases hover : 143 ≤ Single.exp g
  · rw [Half.mag_encodeBy_overflow t hover hg]
    by_cases hover' : 143 ≤ Single.exp f
    · exact (Half.mag_encodeBy_overflow t hover' (hle.trans hg)).le
    · have hbinade : Single.binade f ≤ 29 := by rw [Single.binade]; omega
      rw [Half.mag_encodeBy_finite t (by omega)]
      omega
  rw [Half.mag_encodeBy_finite t (f := f) (by omega), Half.mag_encodeBy_finite t (f := g) (by omega)]
  by_cases hsame : Single.binade f = Single.binade g
  · have hunits : Single.units f ≤ Single.units g := (patternMagnitude_strictMono 23).monotone hle
    rw [hsame]
    exact Nat.add_le_add_left (roundNat_mono t _ hunits) _
  · have hbinade : Single.binade f < Single.binade g := by
      rw [Single.binade, Single.binade] at *
      omega
    have hroundg := le_roundNat t (Single.units g) (125 + Single.binade g)
    have hlead := (Single.quotient_bounds g).2
    omega

/-- A pattern that is no NaN lies at or below infinity. -/
theorem Single.mag_le_infinity_iff (f : U32) : Single.mag f ≤ 0x7f800000 ↔ Single.fpClass f ≠ .nan := by
  obtain ⟨-, -, -, -, hnan⟩ := classesAreMagnitudeRanges.1 f
  rw [Ne, hnan]
  omega

/-- Settles O27: for operands at or below infinity. -/
theorem encodeIsMonotoneOnMagnitudes : Obligations.EncodeIsMonotoneOnMagnitudes :=
  fun t _ g _ hg hle => Half.mag_encodeBy_mono t ((Single.mag_le_infinity_iff g).mpr hg) hle

end Sys2Proof.Machine
end

section
/-! PROOFS. `ENCODE` on the machine: NaNs, the subnormal path, the rounding step as quotient and remainder, the two tie rules,
and the ranges of operands that share a result (40_encode.md R104, R108, R114, R120, R121; 42_classify.md R166; 45_properties.md
R187). -/

namespace Sys2Proof.Machine

/-! ### NaNs -/

/-- Settles O16: the NaN path; a payload with nothing in its top ten bits is a number of 13 bits. -/
theorem encodeNaNKeepsTopPayloadBits : Obligations.EncodeNaNKeepsTopPayloadBits := by
  intro f s hexp hsig
  refine ⟨exec_encode_of_toNat ?_ s, by omega⟩
  rw [Codec.encode, Codec.encodeBy_nan _ hexp hsig, Nat.add_assoc]

/-- Settles O29: the two meanings are one; the examples lie in the regular case. -/
theorem toHalfIsEncodeOfTheSameBits : Obligations.ToHalfIsEncodeOfTheSameBits :=
  fun v s => ⟨⟨_, exec_eq (.toHalf v) s, high_resOfHalf _, exec_eq (.encode v) s⟩, rfl,
    exec_encode_of_toNat (Codec.encode_regular (f := 0x3f800000#32) (by decide) (by decide)) s,
    exec_encode_of_toNat (Codec.encode_regular (f := 0xbf800000#32) (by decide) (by decide)) s⟩

/-! ### Quotient and remainder -/

theorem roundNat_bias (S k : Nat) :
    roundNat .bias S k = S / 2 ^ k + if 2 ^ (k - 1) ≤ S % 2 ^ k then 1 else 0 := rfl

/-- Settles O22: the biased shift, and with it both rounding paths. -/
theorem roundingIsQuotientAndRemainder : Obligations.RoundingIsQuotientAndRemainder := by
  refine ⟨fun S k hS hlow hhigh => ?_, fun f hlow hhigh => ?_, fun f hlow hhigh => ?_⟩
  · have hnumber : (BitVec.ofNat 32 S).toNat = S := Nat.mod_eq_of_lt (by omega)
    rw [Codec.roundByBias_toNat (by rwa [hnumber]), hnumber, Nat.sub_add_cancel hlow, roundNat_bias]
  · have hhalf : 126 - Single.exp f - 1 = 125 - Single.exp f := by omega
    rw [Codec.encode, Codec.encodeBy_subnormal _ hlow hhigh, roundNat_bias, hhalf, Nat.add_assoc]
  · rw [Codec.encode, Codec.encodeBy_regular _ hlow hhigh, roundNat_bias, Nat.add_assoc, Nat.add_assoc, Nat.add_assoc]

/-! ### The two tie rules -/

/-- The tie rules differ at a remainder of exactly half with an even quotient, and there by one. -/
theorem roundNat_bias_eq_even_add (S k : Nat) :
    roundNat .bias S k = roundNat .even S k + if S % 2 ^ k = 2 ^ (k - 1) ∧ S / 2 ^ k % 2 = 0 then 1 else 0 := by
  simp only [roundNat]
  split_ifs <;> omega

/-- The operands of R114: a tie whose kept last bit is 0, in the regular case and on the subnormal path. -/
abbrev Single.IsEvenTie (f : U32) : Prop :=
  (113 ≤ Single.exp f ∧ Single.exp f ≤ 142 ∧ Single.sig f % 2 ^ 14 = 2 ^ 12) ∨
  (102 ≤ Single.exp f ∧ Single.exp f ≤ 112 ∧
    (2 ^ 23 + Single.sig f) % 2 ^ (126 - Single.exp f) = 2 ^ (125 - Single.exp f) ∧
    (2 ^ 23 + Single.sig f) / 2 ^ (126 - Single.exp f) % 2 = 0)

/-- The overflow, NaN and zero paths do not round, so they do not look at the tie rule. -/
theorem Codec.encodeBy_eq_of_not_rounded (t t' : Config.TieRule) {f : U32} (h : Single.exp f ≤ 101 ∨ 143 ≤ Single.exp f) :
    Codec.encodeBy t f = Codec.encodeBy t' f := by
  apply BitVec.eq_of_toNat_eq
  rcases h with hzero | hover
  · rw [Codec.encodeBy_zero t hzero, Codec.encodeBy_zero t' hzero]
  by_cases hnan : Single.exp f = 255 ∧ Single.sig f ≠ 0
  · obtain ⟨hexp, hpayload⟩ := hnan
    rw [Codec.encodeBy_nan t hexp hpayload, Codec.encodeBy_nan t' hexp hpayload]
  · rw [Codec.encodeBy_overflow t hover (by omega), Codec.encodeBy_overflow t' hover (by omega)]

/-- R114: the number of the result under the two rules, on each of the two paths that round. -/
theorem Codec.encodeBy_bias_toNat (f : U32) :
    (Codec.encodeBy .bias f).toNat = (Codec.encodeBy .even f).toNat + if Single.IsEvenTie f then 1 else 0 := by
  by_cases hrounds : Single.exp f ≤ 101 ∨ 143 ≤ Single.exp f
  · have hnone : ¬Single.IsEvenTie f := by
      unfold Single.IsEvenTie
      omega
    rw [Codec.encodeBy_eq_of_not_rounded .bias .even hrounds, if_neg hnone, Nat.add_zero]
  by_cases hsub : Single.exp f ≤ 112
  · have htie : Single.IsEvenTie f ↔ (2 ^ 23 + Single.sig f) % 2 ^ (126 - Single.exp f) = 2 ^ (126 - Single.exp f - 1) ∧
        (2 ^ 23 + Single.sig f) / 2 ^ (126 - Single.exp f) % 2 = 0 := by
      have hhalf : 126 - Single.exp f - 1 = 125 - Single.exp f := by omega
      unfold Single.IsEvenTie
      rw [hhalf]
      omega
    rw [Codec.encodeBy_subnormal _ (by omega) hsub, Codec.encodeBy_subnormal _ (by omega) hsub,
      roundNat_bias_eq_even_add, Nat.add_assoc]
    simp only [htie]
  · have htie : Single.IsEvenTie f ↔ Single.sig f % 2 ^ 13 = 2 ^ (13 - 1) ∧ Single.sig f / 2 ^ 13 % 2 = 0 := by
      unfold Single.IsEvenTie
      omega
    rw [Codec.encodeBy_regular _ (by omega) (by omega), Codec.encodeBy_regular _ (by omega) (by omega),
      roundNat_bias_eq_even_add, ← Nat.add_assoc]
    simp only [htie]

/-- Settles O23: the numbers of the two results differ by one exactly on the even ties. -/
theorem tieRulesDifferExactlyOnEvenTies : Obligations.TieRulesDifferExactlyOnEvenTies := by
  intro f
  have hnumber := Codec.encodeBy_bias_toNat f
  have hdiffer : Codec.encodeBy .bias f ≠ Codec.encodeBy .even f ↔ Single.IsEvenTie f := by
    rw [Ne, ← BitVec.toNat_inj, hnumber]
    split_ifs with htie <;> simp [htie]
  refine ⟨hdiffer, fun hne => BitVec.eq_of_toNat_eq ?_⟩
  have hlt := (Codec.encodeBy .bias f).isLt
  rw [if_pos (hdiffer.mp hne)] at hnumber
  rw [BitVec.toNat_add, BitVec.toNat_ofNat]
  omega

/-! ### Ranges of operands that share a result -/

/-- A result lies between those of the ends of any range its operand lies in. -/
theorem Half.mag_encodeBy_between (t : Config.TieRule) {f low high : U32} (hhigh : Single.mag high ≤ 0x7f800000)
    (hl : Single.mag low ≤ Single.mag f) (hh : Single.mag f ≤ Single.mag high) :
    Half.mag (Codec.encodeBy t low) ≤ Half.mag (Codec.encodeBy t f) ∧
      Half.mag (Codec.encodeBy t f) ≤ Half.mag (Codec.encodeBy t high) :=
  ⟨Half.mag_encodeBy_mono t (hh.trans hhigh) hl, Half.mag_encodeBy_mono t hhigh hh⟩

/-- Below 2^-25. -/
theorem Half.mag_encodeBy_underflow (t : Config.TieRule) {f : U32} (h : Single.mag f ≤ 0x32ffffff) :
    Half.mag (Codec.encodeBy t f) = 0 := by
  have hend : Half.mag (Codec.encodeBy t 0x32ffffff#32) = 0 := by cases t <;> decide
  have hle := Half.mag_encodeBy_mono t (f := f) (g := 0x32ffffff#32) (by decide) h
  omega

/-- From 2^-25 below 1.5 * 2^-24, where the even rule starts just above the tie 2^-25. -/
theorem Half.mag_encodeBy_smallest (t : Config.TieRule) {f : U32} {low : U32} (hlow : Half.mag (Codec.encodeBy t low) = 1)
    (hl : Single.mag low ≤ Single.mag f) (hh : Single.mag f ≤ 0x33bfffff) : Half.mag (Codec.encodeBy t f) = 1 := by
  have hend : Half.mag (Codec.encodeBy t 0x33bfffff#32) = 1 := by cases t <;> decide
  have hbetween := Half.mag_encodeBy_between t (high := 0x33bfffff#32) (by decide) hl hh
  omega

/-- On the subnormal path below 2^-14 - 2^-25. -/
theorem Half.mag_encode_subnormal {f : U32} (hl : 0x33000000 ≤ Single.mag f) (hh : Single.mag f ≤ 0x387fdfff) :
    1 ≤ Half.mag (Codec.encode f) ∧ Half.mag (Codec.encode f) ≤ 0x03ff :=
  Half.mag_encodeBy_between Config.tieRule (low := 0x33000000#32) (high := 0x387fdfff#32) (by decide) hl hh

/-- From 2^-14 - 2^-25 below 2^-14: the carry out of the subnormals. -/
theorem Half.mag_encode_subnormal_carry {f : U32} (hl : 0x387fe000 ≤ Single.mag f) (hh : Single.mag f ≤ 0x387fffff) :
    Half.mag (Codec.encode f) = 0x0400 := by
  obtain ⟨hlow, hhigh⟩ : 0x0400 ≤ Half.mag (Codec.encode f) ∧ Half.mag (Codec.encode f) ≤ 0x0400 :=
    Half.mag_encodeBy_between Config.tieRule (low := 0x387fe000#32) (high := 0x387fffff#32) (by decide) hl hh
  omega

/-- From 2^-14 below 65520. -/
theorem Half.mag_encode_normal {f : U32} (hl : 0x38800000 ≤ Single.mag f) (hh : Single.mag f ≤ 0x477fefff) :
    0x0400 ≤ Half.mag (Codec.encode f) ∧ Half.mag (Codec.encode f) ≤ 0x7bff :=
  Half.mag_encodeBy_between Config.tieRule (low := 0x38800000#32) (high := 0x477fefff#32) (by decide) hl hh

/-- Below 65520 the result is finite. -/
theorem Half.mag_encodeBy_of_lt_65520 (t : Config.TieRule) {f : U32} (h : Single.mag f < 0x477ff000) :
    Half.mag (Codec.encodeBy t f) ≤ 0x7bff := by
  have hend : Half.mag (Codec.encodeBy t 0x477fefff#32) = 0x7bff := by cases t <;> decide
  rw [← hend]
  exact Half.mag_encodeBy_mono t (by decide) (Nat.le_of_lt_succ h)

/-- From 65520 to infinity the result is infinity. -/
theorem Half.mag_encodeBy_saturated (t : Config.TieRule) {f : U32} (hl : 0x477ff000 ≤ Single.mag f)
    (hh : Single.mag f ≤ 0x7f800000) : Half.mag (Codec.encodeBy t f) = 0x7c00 := by
  have hlow : Half.mag (Codec.encodeBy t 0x477ff000#32) = 0x7c00 := by cases t <;> decide
  have hhigh : Half.mag (Codec.encodeBy t 0x7f800000#32) = 0x7c00 := by cases t <;> decide
  have hbetween := Half.mag_encodeBy_between t (low := 0x477ff000#32) (high := 0x7f800000#32) (by decide) hl hh
  omega

theorem Half.mag_encodeBy_eq_infinity_iff (t : Config.TieRule) (f : U32) :
    Half.mag (Codec.encodeBy t f) = 0x7c00 ↔ 0x477ff000 ≤ Single.mag f ∧ Single.mag f ≤ 0x7f800000 := by
  refine ⟨fun hinf => ⟨?_, ?_⟩, fun ⟨hl, hh⟩ => Half.mag_encodeBy_saturated t hl hh⟩
  · by_contra hlt
    have hfinite := Half.mag_encodeBy_of_lt_65520 t (f := f) (by omega)
    omega
  · by_contra hnan
    have hpayload := Half.mag_encodeBy_nan t (f := f) (by omega)
    obtain ⟨hpos, -⟩ := Single.halfPayload_bounds f
    omega

theorem Half.infinity_lt_mag_encodeBy_iff (t : Config.TieRule) (f : U32) :
    0x7c00 < Half.mag (Codec.encodeBy t f) ↔ 0x7f800000 < Single.mag f := by
  constructor
  · intro hnan
    by_contra hle
    rcases Nat.lt_or_ge (Single.mag f) 0x477ff000 with hlt | hge
    · have hfinite := Half.mag_encodeBy_of_lt_65520 t hlt
      omega
    · have hinf := Half.mag_encodeBy_saturated t hge (by omega)
      omega
  · intro hnan
    obtain ⟨hpos, -⟩ := Single.halfPayload_bounds f
    rw [Half.mag_encodeBy_nan t hnan]
    omega

/-- A result as its operand's sign and its own magnitude. -/
theorem Codec.encodeBy_toNat_eq (t : Config.TieRule) (f : U32) :
    (Codec.encodeBy t f).toNat = Single.sign f * 2 ^ 15 + Half.mag (Codec.encodeBy t f) := by
  rw [← Half.sign_encodeBy t f, Half.mag_fields, ← Nat.add_assoc, ← Half.toNat_fields]

theorem exec_encode_of_mag {f : U32} {n : Nat} (h : Half.mag (Codec.encode f) = n) (s : State) :
    exec (.encode f) s = .next { s with results := s.results ++
      [if f.getLsbD 31 then BitVec.ofNat 32 (2 ^ 15 + n) else BitVec.ofNat 32 n] } := by
  rw [← Single.ofNat_sign_add, ← h]
  exact exec_encode_of_toNat (Codec.encodeBy_toNat_eq _ f) s

/-- Settles O49: the two ranges under the bias rule; under the even rule the second starts one pattern later. -/
theorem encodeUnderflowRanges : Obligations.EncodeUnderflowRanges := by
  refine ⟨fun f s h => exec_encode_of_mag (Half.mag_encodeBy_underflow _ h) s,
    fun f s hl hh => exec_encode_of_mag (Half.mag_encodeBy_smallest _ (low := 0x33000000#32) (by decide) hl hh) s,
    fun f h => ?_, fun f hl hh => Half.mag_encodeBy_smallest _ (low := 0x33000001#32) (by decide) hl hh⟩
  have htie : Half.mag (Codec.encodeBy .even 0x33000000#32) = 0 := by decide
  have hle := Half.mag_encodeBy_mono .even (f := f) (g := 0x33000000#32) (by decide) (Nat.le_of_eq h)
  omega

/-- Settles O20: the bias form of the rounding step; the bounds are those of the path's range of magnitude patterns. -/
theorem encodeSubnormalPathRoundsByBias : Obligations.EncodeSubnormalPathRoundsByBias := by
  intro f s hlow hhigh
  have hshift : 113 - Single.exp f + 13 = 126 - Single.exp f := by omega
  have hnumber : (Codec.encode f).toNat = Single.sign f * 2 ^ 15 +
      ((2 ^ 23 + Single.sig f) / 2 ^ (113 - Single.exp f) + 2 ^ 12) / 2 ^ 13 := by
    rw [biased_shift_eq, hshift]
    exact Codec.encodeBy_subnormal _ hlow hhigh
  refine ⟨exec_encode_of_toNat hnumber s, ?_⟩
  have hsig := Single.sig_lt f
  have hmag := Single.mag_fields f
  by_cases hcarry : 0x387fe000 ≤ Single.mag f
  · have htop := Half.mag_encode_subnormal_carry hcarry (by omega)
    omega
  · obtain ⟨hpos, hle⟩ := Half.mag_encode_subnormal (f := f) (by omega) (by omega)
    omega

/-- Settles O41: the predicates read the result's magnitude pattern. -/
theorem encodeGivesNaNAndInfinityExactlyWhenDue : Obligations.EncodeGivesNaNAndInfinityExactlyWhenDue := by
  refine fun f => ⟨?_, (Codec.isInf_iff _).trans (Half.mag_encodeBy_eq_infinity_iff _ f)⟩
  have hsig := Half.sig_lt (Codec.encode f)
  have hexp := Half.exp_le (Codec.encode f)
  have hresult : Codec.isNaN (Codec.encode f) = 1#1 ↔ 0x7c00 < Half.mag (Codec.encode f) := by
    rw [Codec.isNaN_iff, Half.mag_fields]
    omega
  rw [hresult, Codec.encode, Half.infinity_lt_mag_encodeBy_iff, ← not_le, Single.mag_le_infinity_iff, not_not]

end Sys2Proof.Machine
end

section
/-! PROOFS. Values of patterns as whole numbers of units of 2^-149 (30_encoding.md R64), and what the conversions do to them:
`DECODE` is exact (41_decode.md R148); `ENCODE` picks a nearest half value (40_encode.md R115) and is off by at most half a
spacing (45_properties.md R191). -/

namespace Sys2Proof.Machine

/-! ### Values in units -/

theorem Single.value_eq_units {f : U32} (he : Single.exp f ≠ 255) :
    Single.value f = some ((-1) ^ Single.sign f * ((Single.units f : ℚ) / 2 ^ 149)) := by
  rw [Single.value_eq he, Single.units_eq]

theorem Half.units_div (c : Nat) : (Half.units c : ℚ) / 2 ^ 149 = (patternMagnitude 10 c : ℚ) / 2 ^ 24 := by
  rw [Half.units, Nat.cast_mul, Nat.cast_pow, Nat.cast_ofNat]
  ring

theorem Half.value_eq_units {h : U16} (he : Half.exp h ≠ 31) :
    Half.value h = some ((-1) ^ Half.sign h * ((Half.units (Half.mag h) : ℚ) / 2 ^ 149)) := by
  rw [Half.value_eq he, Half.units_div, Half.mag_fields, patternMagnitude_fields (Half.sig_lt h)]

theorem Half.candidate_eq_units (c : Nat) : Half.candidate c = (Half.units c : ℚ) / 2 ^ 149 := by
  rw [Half.candidate_eq, Half.units_div, patternMagnitude]

/-- A power of two in units. -/
theorem two_pow_eq_units_div {a : ℕ} {E : ℤ} (hE : E + 149 = a) : (2 : ℚ) ^ E = ((2 ^ a : ℕ) : ℚ) / 2 ^ 149 := by
  rw [eq_div_iff (by positivity), ← zpow_natCast, ← zpow_add₀ (by norm_num), Nat.cast_pow, Nat.cast_ofNat, ← zpow_natCast]
  exact congrArg _ hE

section OfValue
variable {f : U32} {x : ℚ} (hx : Single.value f = some x)
include hx

/-- Only a finite pattern has a value. -/
theorem Single.exp_ne_of_value : Single.exp f ≠ 255 := by
  intro he
  rw [Single.value_eq_none he] at hx
  cases hx

theorem Single.eq_of_value : x = (-1) ^ Single.sign f * ((Single.units f : ℚ) / 2 ^ 149) := by
  rw [Single.value_eq_units (Single.exp_ne_of_value hx)] at hx
  exact (Option.some.inj hx).symm

theorem Single.abs_of_value : |x| = (Single.units f : ℚ) / 2 ^ 149 := by
  rw [Single.eq_of_value hx, abs_mul, abs_pow, abs_neg, abs_one, one_pow, one_mul]
  exact abs_of_nonneg (by positivity)

/-- A comparison with a value is a comparison with its pattern. -/
theorem Single.abs_lt_iff {b : U32} {n : ℕ} {y : ℚ} (hb : Single.units b = n) (hy : y = (n : ℚ) / 2 ^ 149) :
    |x| < y ↔ Single.mag f < Single.mag b := by
  rw [Single.abs_of_value hx, hy, ← hb, div_lt_div_iff_of_pos_right (by positivity), Nat.cast_lt, Single.units_lt_iff]

theorem Single.abs_lt_65520_iff : |x| < 65520 ↔ Single.mag f < 0x477ff000 :=
  Single.abs_lt_iff hx (b := 0x477ff000#32) (n := 65520 * 2 ^ 149) (by decide) (by norm_num)

/-- A comparison with a power of two is a comparison of the exponent field. -/
theorem Single.abs_lt_two_pow_iff {a : ℕ} {E : ℤ} (hE : E + 126 = a) : |x| < 2 ^ E ↔ Single.exp f ≤ a := by
  have hpower := two_pow_eq_units_div (a := 23 + a) (E := E) (by omega)
  rw [Single.abs_of_value hx, hpower, div_lt_div_iff_of_pos_right (by positivity), Nat.cast_lt,
    Single.units_lt_two_pow_iff]

end OfValue

/-! ### DECODE is exact -/

theorem Single.units_decode {h : U16} (he : Half.exp h ≠ 31) :
    Single.units (Codec.decode h) = Half.units (Half.mag h) := by
  have hhalf : Half.units (Half.mag h) = scaledMagnitude 10 (Half.exp h) (Half.sig h) * 2 ^ 125 := by
    rw [Half.units, Half.mag_fields, patternMagnitude_fields (Half.sig_lt h)]
  rw [hhalf, Single.units_eq]
  rcases Codec.decode_cases h with
    ⟨he0, hs0, he', hs'⟩ | ⟨p, hp, he0, hlow, hhigh, he', hs'⟩ | ⟨hlow, hhigh, he', hs'⟩ | ⟨htop, -, -⟩
  · rw [he', hs', he0, hs0]
    rfl
  · have hlead : 2 ^ 10 ≤ Half.sig h * 2 ^ (10 - p) := by
      calc 2 ^ 10 = 2 ^ p * 2 ^ (10 - p) := by rw [← Nat.pow_add]; congr 1; omega
        _ ≤ _ := Nat.mul_le_mul_right _ hlow
    have hsig : 2 ^ 23 + (Half.sig h * 2 ^ (10 - p) - 2 ^ 10) * 2 ^ 13 = Half.sig h * 2 ^ (10 - p) * 2 ^ 13 := by omega
    have hexp : 103 + p = 102 + p + 1 := by omega
    have hplace : 125 = 10 - p + (13 + (102 + p)) := by omega
    rw [he', hs', he0, hexp, scaledMagnitude_succ_exp, scaledMagnitude_zero_exp, hsig, hplace, Nat.pow_add, Nat.pow_add]
    ring
  · obtain ⟨e, hexp⟩ := Nat.exists_eq_add_one_of_ne_zero (n := Half.exp h) (by omega)
    have hexp' : e + 1 + 112 = e + 112 + 1 := by omega
    rw [he', hs', hexp, hexp', scaledMagnitude_succ_exp, scaledMagnitude_succ_exp]
    ring
  · exact absurd htop he

theorem Codec.exp_decode_eq_iff (h : U16) : Single.exp (Codec.decode h) = 255 ↔ Half.exp h = 31 := by
  rcases Codec.decode_cases h with
    ⟨_, _, _, _⟩ | ⟨p, _, _, _, _, _, _⟩ | ⟨_, _, _, _⟩ | ⟨_, _, _⟩ <;> omega

/-- Settles O34: the magnitude and the sign go over unchanged; an infinity and a NaN keep the all-ones exponent. -/
theorem decodeIsExact : Obligations.DecodeIsExact := by
  intro h
  by_cases he : Half.exp h = 31
  · rw [Single.value_eq_none ((Codec.exp_decode_eq_iff h).mpr he), Half.value_eq_none he]
  · rw [Single.value_eq_units (mt (Codec.exp_decode_eq_iff h).mp he), Half.value_eq_units he, Single.units_decode he,
      Single.sign_decode]

/-! ### The named constants -/

theorem Half.value_of_units {h : U16} {sign n : ℕ} (he : Half.exp h ≠ 31) (hs : Half.sign h = sign)
    (hn : Half.units (Half.mag h) = n * 2 ^ 149) :
    Half.value h = some ((-1) ^ sign * (n : ℚ)) := by
  rw [Half.value_eq_units he, hs, hn, Nat.cast_mul, Nat.cast_pow, Nat.cast_ofNat, mul_div_cancel_right₀ _ (by positivity)]

/-- Settles O54: the values by their whole number of units, the classes by the fields. -/
theorem namedConstantsHaveTheirClassAndValue : Obligations.NamedConstantsHaveTheirClassAndValue := by
  refine ⟨?_, ?_, ?_, ?_, ?_, Half.value_eq_none (by decide), Half.value_eq_none (by decide),
    Half.value_eq_none (by decide), by decide⟩
  · simpa using Half.value_of_units (h := Config.hPZero) (sign := 0) (n := 0) (by decide) (by decide) (by decide)
  · simpa using Half.value_of_units (h := Config.hNZero) (sign := 1) (n := 0) (by decide) (by decide) (by decide)
  · simpa using Half.value_of_units (h := Config.hOne) (sign := 0) (n := 1) (by decide) (by decide) (by decide)
  · simpa using Half.value_of_units (h := Config.hNegOne) (sign := 1) (n := 1) (by decide) (by decide) (by decide)
  · simpa using Half.value_of_units (h := Config.hMax) (sign := 0) (n := 65504) (by decide) (by decide) (by decide)

/-! ### The result of ENCODE by magnitude -/

/-- The biased rounding step, half of the last kept place added at once. -/
theorem roundNat_bias_eq_add_half (S a : Nat) : roundNat .bias S (a + 13) = (S + 2 ^ (a + 12)) / 2 ^ (a + 13) := by
  have hhalf : 2 ^ (a + 12) = 2 ^ 12 * 2 ^ a := by rw [Nat.pow_add, Nat.mul_comm]
  have hplace : 2 ^ (a + 13) = 2 ^ a * 2 ^ 13 := Nat.pow_add ..
  rw [← biased_shift_eq, hplace, ← Nat.div_div_eq_div_mul, hhalf, Nat.add_mul_div_right _ _ (Nat.two_pow_pos a)]

/-- R115, second row: below 2^-14 the result is the rounded number of units of 2^-24. -/
theorem Half.mag_encode_eq_floor {f : U32} {x : ℚ} (hx : Single.value f = some x) (he : Single.exp f ≤ 112) :
    (Half.mag (Codec.encode f) : ℤ) = ⌊|x| * 2 ^ 24 + 1 / 2⌋ := by
  have hbinade : Single.binade f = 0 := by rw [Single.binade]; omega
  have hround : Half.mag (Codec.encode f) = (Single.units f + 2 ^ 124) / 2 ^ 125 := by
    rw [Codec.encode, Half.mag_encodeBy_finite _ (by omega), hbinade, Nat.zero_mul, Nat.zero_add]
    exact roundNat_bias_eq_add_half (Single.units f) 112
  have hscaled : |x| * 2 ^ 24 + 1 / 2 = ((Single.units f + 2 ^ 124 : ℕ) : ℚ) / ((2 ^ 125 : ℕ) : ℚ) := by
    rw [Single.abs_of_value hx]
    push_cast
    ring
  rw [hscaled, Rat.floor_natCast_div_natCast, hround]
  norm_cast

theorem Half.fpClass_eq_subnormal_of_mag {h : U16} (hl : 1 ≤ Half.mag h) (hh : Half.mag h ≤ 0x03ff) :
    Half.fpClass h = .subnormal :=
  (classesAreMagnitudeRanges.2 h).2.1.mpr ⟨hl, hh⟩

theorem Half.fpClass_eq_normal_of_mag {h : U16} (hl : 0x0400 ≤ Half.mag h) (hh : Half.mag h ≤ 0x7bff) :
    Half.fpClass h = .normal :=
  (classesAreMagnitudeRanges.2 h).2.2.1.mpr ⟨hl, hh⟩

/-- Settles O24: each row's bounds are values of single patterns, between which the operand's pattern lies. -/
theorem encodeResultByMagnitudeRange : Obligations.EncodeResultByMagnitudeRange := by
  intro f x hx
  have hsmall : |x| < 2 ^ (-25 : ℤ) ↔ Single.mag f < 0x33000000 :=
    Single.abs_lt_iff hx (b := 0x33000000#32) (n := 2 ^ 124) (by decide) (by norm_num)
  have hcarry : |x| < 2 ^ (-14 : ℤ) - 2 ^ (-25 : ℤ) ↔ Single.mag f < 0x387fe000 :=
    Single.abs_lt_iff hx (b := 0x387fe000#32) (n := 2 ^ 135 - 2 ^ 124) (by decide) (by norm_num)
  have hnormal : |x| < 2 ^ (-14 : ℤ) ↔ Single.mag f < 0x38800000 :=
    Single.abs_lt_iff hx (b := 0x38800000#32) (n := 2 ^ 135) (by decide) (by norm_num)
  have hlarge := Single.abs_lt_65520_iff hx
  have hfinite := Single.exp_ne_of_value hx
  have hmag := Single.mag_fields f
  have hsig := Single.sig_lt f
  have hexp := Single.exp_le f
  simp only [← not_lt, hsmall, hcarry, hnormal, hlarge]
  refine ⟨Half.sign_encodeBy _ f, fun hhigh => ?_, fun hlow hhigh => ⟨?_, ?_⟩, fun hlow hhigh => ?_,
    fun hlow hhigh => ?_, fun hlow => ?_⟩
  · exact Half.mag_encodeBy_underflow _ (by omega)
  · exact Half.mag_encode_eq_floor hx (by omega)
  · obtain ⟨hl, hh⟩ := Half.mag_encode_subnormal (f := f) (by omega) (by omega)
    exact Half.fpClass_eq_subnormal_of_mag hl hh
  · exact Half.mag_encode_subnormal_carry (by omega) (by omega)
  · obtain ⟨hl, hh⟩ := Half.mag_encode_normal (f := f) (by omega) (by omega)
    exact Half.fpClass_eq_normal_of_mag hl hh
  · exact Half.mag_encodeBy_saturated _ (by omega) (by omega)

/-! ### The nearest half value -/

/-- The distance between the half pattern `c` and the operand `f`, signs aside, in units of 2^-149. -/
def Half.distance (c : Nat) (f : U32) : Nat := ((Half.units c : ℤ) - Single.units f).natAbs

theorem abs_candidate_sub {f : U32} {x : ℚ} (hx : Single.value f = some x) (c : Nat) :
    abs (Half.candidate c - abs x) = (Half.distance c f : ℚ) / 2 ^ 149 := by
  rw [Half.candidate_eq_units, Single.abs_of_value hx, ← sub_div, abs_div, abs_of_pos (by positivity : (0 : ℚ) < 2 ^ 149),
    Half.distance, Nat.cast_natAbs]
  push_cast
  rfl

/-- Either rule rounds down to at most half a unit below, or up from at least half a unit; the bias rule never goes down at half. -/
theorem roundNat_cases (t : Config.TieRule) (S k : Nat) :
    (roundNat t S k = S / 2 ^ k ∧ S % 2 ^ k ≤ 2 ^ (k - 1) ∧ (t = .bias → S % 2 ^ k < 2 ^ (k - 1))) ∨
      (roundNat t S k = S / 2 ^ k + 1 ∧ 2 ^ (k - 1) ≤ S % 2 ^ k) := by
  cases t with
  | bias =>
    rw [roundNat_bias]
    by_cases hup : 2 ^ (k - 1) ≤ S % 2 ^ k
    · exact .inr ⟨by rw [if_pos hup], hup⟩
    · exact .inl ⟨by rw [if_neg hup, Nat.add_zero], by omega, fun _ => by omega⟩
  | even =>
    simp only [roundNat]
    by_cases hup : 2 ^ (k - 1) < S % 2 ^ k ∨ (S % 2 ^ k = 2 ^ (k - 1) ∧ S / 2 ^ k % 2 = 1)
    · exact .inr ⟨by rw [if_pos hup], by omega⟩
    · exact .inl ⟨by rw [if_neg hup, Nat.add_zero], by omega, nofun⟩

/-- The operand's magnitude as a quotient and a remainder by the last place of its binade. -/
theorem Single.units_div_mod (f : U32) :
    Single.units f = Single.units f / 2 ^ (125 + Single.binade f) * 2 ^ (125 + Single.binade f) +
        Single.units f % 2 ^ (125 + Single.binade f) ∧
      Single.units f % 2 ^ (125 + Single.binade f) < 2 ^ (125 + Single.binade f) ∧
      2 ^ (125 + Single.binade f) = 2 * 2 ^ (124 + Single.binade f) := by
  refine ⟨(Nat.div_add_mod' _ _).symm, Nat.mod_lt _ (Nat.two_pow_pos _), ?_⟩
  rw [← Nat.pow_succ']
  congr 1
  omega

/-- A finite operand lies between two neighbouring half magnitudes, a last place of its binade apart; the result is the lower one
when the remainder is at most half a place and the upper one when it is at least that, and under the bias rule the upper one
at exactly half. -/
theorem Half.units_bracket (t : Config.TieRule) {f : U32} (he : Single.exp f ≤ 142) :
    ∃ c r, Half.units c + r = Single.units f ∧
      Half.units (c + 1) = Half.units c + 2 * 2 ^ (124 + Single.binade f) ∧ r < 2 * 2 ^ (124 + Single.binade f) ∧
      r = Single.units f % 2 ^ (125 + Single.binade f) ∧
      ((Half.mag (Codec.encodeBy t f) = c ∧ r ≤ 2 ^ (124 + Single.binade f) ∧
          (t = .bias → r < 2 ^ (124 + Single.binade f))) ∨
        (Half.mag (Codec.encodeBy t f) = c + 1 ∧ 2 ^ (124 + Single.binade f) ≤ r)) := by
  obtain ⟨hlt, hlead⟩ := Single.quotient_bounds f
  obtain ⟨hsplit, hrem, hplace⟩ := Single.units_div_mod f
  have hlow := Half.units_add hlead hlt.le
  have hhigh := Half.units_add (hlead.imp_right Nat.le_succ_of_le) (Nat.succ_le_of_lt hlt)
  have hround := roundNat_cases t (Single.units f) (125 + Single.binade f)
  have hhalf : 125 + Single.binade f - 1 = 124 + Single.binade f := by omega
  rw [hhalf] at hround
  refine ⟨Single.binade f * 2 ^ 10 + Single.units f / 2 ^ (125 + Single.binade f),
    Single.units f % 2 ^ (125 + Single.binade f), ?_, ?_, by omega, rfl, ?_⟩
  · rw [hlow, ← hsplit]
  · rw [Nat.add_assoc, hhigh, hlow, Nat.succ_mul, hplace]
  · rw [Half.mag_encodeBy_finite t he]
    exact hround.imp (fun ⟨hdown, hrest⟩ => ⟨by rw [hdown], hrest⟩) (fun ⟨hup, hrest⟩ => ⟨by rw [hup, Nat.add_assoc], hrest⟩)

/-- R115, closing sentence, in units: under either rule no half magnitude up to 2^16 is nearer than the result, and under the
bias rule none as near is larger. -/
theorem Half.distance_encodeBy_le (t : Config.TieRule) {f : U32} (hfinite : Single.exp f ≠ 255) {c : Nat} (hc : c ≤ 0x7c00) :
    Half.distance (Half.mag (Codec.encodeBy t f)) f ≤ Half.distance c f ∧
      (t = .bias → Half.distance (Half.mag (Codec.encodeBy t f)) f = Half.distance c f →
        c ≤ Half.mag (Codec.encodeBy t f)) := by
  have hmono {a b : Nat} (h : a ≤ b) : Half.units a ≤ Half.units b := Half.units_strictMono.monotone h
  by_cases hover : 143 ≤ Single.exp f
  · have hinf : Half.mag (Codec.encodeBy t f) = 0x7c00 := by
      have hexp := Single.exp_le f
      have hsig := Single.sig_lt f
      exact Half.mag_encodeBy_overflow t hover (by rw [Single.mag_fields]; omega)
    have hlarge : Half.units 0x7c00 ≤ Single.units f := by
      have hle := mt (Single.units_lt_two_pow_iff f 142).mp (by omega)
      exact Nat.le_of_not_lt hle
    have hle := hmono hc
    rw [hinf, Half.distance, Half.distance]
    exact ⟨by omega, fun _ _ => hc⟩
  obtain ⟨c₀, r, hsplit, hnext, hrem, -, hresult⟩ := Half.units_bracket t (f := f) (by omega)
  rw [Half.distance, Half.distance]
  rcases Nat.lt_or_ge c₀ c with habove | hbelow
  · have hle : Half.units (c₀ + 1) ≤ Half.units c := hmono habove
    rcases hresult with ⟨hdown, hhalf, hstrict⟩ | ⟨hup, hhalf⟩
    · rw [hdown]
      exact ⟨by omega, fun hbias heq => by have hlt := hstrict hbias; omega⟩
    · rw [hup]
      refine ⟨by omega, fun _ heq => ?_⟩
      by_contra hlarger
      have hlt := Half.units_strictMono (Nat.lt_of_not_le hlarger)
      omega
  · have hle := hmono hbelow
    rcases hresult with ⟨hdown, hhalf, hstrict⟩ | ⟨hup, hhalf⟩
    · rw [hdown]
      exact ⟨by omega, fun _ _ => hbelow⟩
    · rw [hup]
      exact ⟨by omega, fun _ _ => by omega⟩

/-- Settles O25: distances between values are distances in units. -/
theorem encodeGivesTheNearestHalf : Obligations.EncodeGivesTheNearestHalf := by
  intro f x c hx hc
  obtain ⟨hnearest, hlargest⟩ := Half.distance_encodeBy_le Config.tieRule (Single.exp_ne_of_value hx) hc
  rw [abs_candidate_sub hx, abs_candidate_sub hx, div_le_div_iff_of_pos_right (by positivity), Nat.cast_le,
    div_left_inj' (by positivity), Nat.cast_inj]
  exact ⟨hnearest, hlargest rfl⟩

/-! ### The error -/

/-- The ties of R121 as remainders of the magnitude: half a last place. -/
theorem Single.isTie_iff {f : U32} (he : Single.exp f ≤ 142) :
    Single.isTie f = true ↔ Single.units f % 2 ^ (125 + Single.binade f) = 2 ^ (124 + Single.binade f) := by
  have hsig := Single.sig_lt f
  rw [Single.isTie, Bool.or_eq_true, decide_eq_true_eq, decide_eq_true_eq]
  by_cases hzero : Single.exp f ≤ 101
  · have hunits : Single.units f < 2 ^ 124 := (Single.units_lt_two_pow_iff f 101).mpr hzero
    have hbinade : Single.binade f = 0 := by rw [Single.binade]; omega
    rw [hbinade, Nat.mod_eq_of_lt (hunits.trans (by decide))]
    omega
  obtain ⟨e, hexp⟩ := Nat.exists_eq_add_one_of_ne_zero (n := Single.exp f) (by omega)
  have hpos := Nat.two_pow_pos e
  have hunits : Single.units f = (2 ^ 23 + Single.sig f) * 2 ^ e := by
    rw [Single.units_eq, hexp, scaledMagnitude_succ_exp]
  by_cases hsub : Single.exp f ≤ 112
  · have hplace : 125 + Single.binade f = 126 - Single.exp f + e := by rw [Single.binade]; omega
    have hhalf : 124 + Single.binade f = 125 - Single.exp f + e := by rw [Single.binade]; omega
    rw [hplace, hhalf, hunits, Nat.pow_add, Nat.pow_add, Nat.mul_mod_mul_right, Nat.mul_left_inj hpos.ne']
    omega
  · have hplace : 125 + Single.binade f = 13 + e := by rw [Single.binade]; omega
    have hhalf : 124 + Single.binade f = 12 + e := by rw [Single.binade]; omega
    rw [hplace, hhalf, hunits, Nat.pow_add, Nat.pow_add, Nat.mul_mod_mul_right, Nat.mul_left_inj hpos.ne']
    omega

/-- R191 in units: the error is at most half a last place, and equal to it exactly at ties. -/
theorem Half.distance_encodeBy_bound (t : Config.TieRule) {f : U32} (he : Single.exp f ≤ 142) :
    Half.distance (Half.mag (Codec.encodeBy t f)) f ≤ 2 ^ (124 + Single.binade f) ∧
      (Half.distance (Half.mag (Codec.encodeBy t f)) f = 2 ^ (124 + Single.binade f) ↔ Single.isTie f = true) := by
  obtain ⟨c, r, hsplit, hnext, hrem, hmod, hresult⟩ := Half.units_bracket t he
  rw [Single.isTie_iff he, ← hmod, Half.distance]
  rcases hresult with ⟨hdown, hhalf, -⟩ | ⟨hup, hhalf⟩
  · rw [hdown]
    omega
  · rw [hup]
    omega

theorem abs_value_encodeBy_sub (t : Config.TieRule) {f : U32} {x : ℚ} (hx : Single.value f = some x)
    (hfinite : Half.exp (Codec.encodeBy t f) ≠ 31) :
    ∃ y, Half.value (Codec.encodeBy t f) = some y ∧
      |y - x| = (Half.distance (Half.mag (Codec.encodeBy t f)) f : ℚ) / 2 ^ 149 := by
  refine ⟨_, Half.value_eq_units hfinite, ?_⟩
  rw [Single.eq_of_value hx, Half.sign_encodeBy, ← mul_sub, abs_mul, abs_pow, abs_neg, abs_one, one_pow, one_mul, ← sub_div,
    abs_div, abs_of_pos (by positivity : (0 : ℚ) < 2 ^ 149), Half.distance, Nat.cast_natAbs]
  push_cast
  rfl

/-- A number of units against a power of two. -/
theorem units_div_compare {d a : ℕ} {E : ℤ} (hE : E + 149 = a) :
    ((d : ℚ) / 2 ^ 149 ≤ 2 ^ E ↔ d ≤ 2 ^ a) ∧ ((d : ℚ) / 2 ^ 149 = 2 ^ E ↔ d = 2 ^ a) := by
  rw [two_pow_eq_units_div hE, div_le_div_iff_of_pos_right (by positivity), Nat.cast_le, div_left_inj' (by positivity), Nat.cast_inj]
  exact ⟨Iff.rfl, Iff.rfl⟩

/-- Settles O26: below 2^-14 the operand lies in the lowest binade, from `2 ^ E` below `2 ^ (E + 1)` in binade `E + 14`. -/
theorem encodeErrorIsAtMostHalfASpacing : Obligations.EncodeErrorIsAtMostHalfASpacing := by
  intro t f x hx hlarge
  have hmag := (Single.abs_lt_65520_iff hx).mp hlarge
  have hexp : Single.exp f ≤ 142 := by rw [Single.mag_fields] at hmag; omega
  have hfinite : Half.exp (Codec.encodeBy t f) ≠ 31 := by
    have hle := Half.mag_encodeBy_of_lt_65520 t hmag
    rw [Half.mag_fields] at hle
    omega
  obtain ⟨y, hy, herror⟩ := abs_value_encodeBy_sub t hx hfinite
  have hspacing {E : ℤ} (hE : E + 149 = (124 + Single.binade f : ℕ)) :
      |y - x| ≤ 2 ^ E ∧ (|y - x| = 2 ^ E ↔ Single.isTie f = true) := by
    obtain ⟨hle, heq⟩ := units_div_compare (d := Half.distance (Half.mag (Codec.encodeBy t f)) f) hE
    rw [herror, hle, heq]
    exact Half.distance_encodeBy_bound t hexp
  refine ⟨y, hy, fun hsmall => hspacing ?_, fun E hlow hhigh hge hlt => hspacing ?_⟩
  · have hle := (Single.abs_lt_two_pow_iff hx (a := 112) (by norm_num)).mp hsmall
    rw [Single.binade]
    omega
  · obtain ⟨b, hb⟩ := Int.eq_ofNat_of_zero_le (show 0 ≤ E + 14 by omega)
    have hle := (Single.abs_lt_two_pow_iff hx (a := 113 + b) (by omega)).mp hlt
    have hnot := mt (Single.abs_lt_two_pow_iff hx (a := 112 + b) (by omega)).mpr hge.not_gt
    rw [Single.binade]
    omega

end Sys2Proof.Machine
end

section
/-! PROOFS. Properties between the two conversions (45_properties.md R180, R181, R189, R193, R197), their sign symmetry
(40_encode.md R118; 41_decode.md R146), and the loop form of `DECODE` on subnormals (41_decode.md R143). -/

namespace Sys2Proof.Machine

/-! ### Round trip -/

theorem Half.eq_of_sign_mag {h h' : U16} (hsign : Half.sign h = Half.sign h') (hmag : Half.mag h = Half.mag h') : h = h' := by
  apply BitVec.eq_of_toNat_eq
  rw [Half.mag_fields, Half.mag_fields] at hmag
  rw [Half.toNat_fields h, Half.toNat_fields h', hsign, Nat.add_assoc, hmag, ← Nat.add_assoc]

theorem Single.eq_of_sign_mag {f f' : U32} (hsign : Single.sign f = Single.sign f') (hmag : Single.mag f = Single.mag f') :
    f = f' := by
  apply BitVec.eq_of_toNat_eq
  rw [Single.mag_fields, Single.mag_fields] at hmag
  rw [Single.toNat_fields f, Single.toNat_fields f', hsign, Nat.add_assoc, hmag, ← Nat.add_assoc]

/-- An expanded infinity or NaN goes back to its own payload. -/
theorem Half.mag_encodeBy_decode_top (t : Config.TieRule) {h : U16} (he : Half.exp h = 31) :
    Half.mag (Codec.encodeBy t (Codec.decode h)) = Half.mag h := by
  obtain ⟨hexp, hsig⟩ := Codec.decode_infinity_nan_fields he
  have hmag := Single.mag_fields (Codec.decode h)
  have hmag' := Half.mag_fields h
  by_cases hs : Half.sig h = 0
  · have hinf := Half.mag_encodeBy_overflow t (f := Codec.decode h) (by omega) (by omega)
    omega
  · have hnan := Half.mag_encodeBy_nan t (f := Codec.decode h) (by omega)
    rw [hnan, Single.halfPayload, hsig, Nat.mul_div_cancel _ (Nat.two_pow_pos 13), if_neg hs]
    omega

/-- R180, R197: an expanded finite value is a half value, so the nearest half value is itself. -/
theorem Codec.encodeBy_decode (t : Config.TieRule) (h : U16) : Codec.encodeBy t (Codec.decode h) = h := by
  refine Half.eq_of_sign_mag (by rw [Half.sign_encodeBy, Single.sign_decode]) ?_
  by_cases he : Half.exp h = 31
  · exact Half.mag_encodeBy_decode_top t he
  · have hunits := Single.units_decode he
    have hc : Half.mag h ≤ 0x7c00 := by
      have hsig := Half.sig_lt h
      have hexp := Half.exp_le h
      rw [Half.mag_fields]
      omega
    obtain ⟨hnearest, -⟩ := Half.distance_encodeBy_le t (mt (Codec.exp_decode_eq_iff h).mp he) hc
    rw [Half.distance, Half.distance, hunits] at hnearest
    exact Half.units_strictMono.injective (by omega)

/-- Settles O43: the round trip, carried to the machine. -/
theorem encodeUndoesDecode : Obligations.EncodeUndoesDecode :=
  fun h s => ⟨_, exec_eq (.decode h) s, exec_encode_of_toNat (congrArg BitVec.toNat (Codec.encodeBy_decode _ h)) _⟩

/-- Settles O44: `encode` is a left inverse of `decode`. -/
theorem decodeIsInjectiveAndEncodeOnto : Obligations.DecodeIsInjectiveAndEncodeOnto :=
  ⟨Function.LeftInverse.injective (g := Codec.encode) (Codec.encodeBy_decode _),
    Function.LeftInverse.surjective (Codec.encodeBy_decode _)⟩

/-- Settles O51: with a left inverse, the image of `decode` is where encoding loses nothing. -/
theorem decodeAfterEncodeIsAProjection : Obligations.DecodeAfterEncodeIsAProjection := by
  refine fun t f => ⟨Codec.encodeBy_decode t _, fun h => ⟨_, h⟩, ?_⟩
  rintro ⟨h, rfl⟩
  rw [Codec.encodeBy_decode]

/-- The results of operands below 65520 are finite patterns. -/
theorem Half.finite_of_mag_le {h : U16} (hmag : Half.mag h ≤ 0x7bff) : (Half.fpClass h).finite = true := by
  have hne : Half.exp h ≠ 31 := by
    rw [Half.mag_fields] at hmag
    omega
  have hnan := mt (Half.fpClass_eq_nan_iff h).mp fun hfields => hne hfields.1
  have hinf := mt (Half.fpClass_eq_infinity_iff h).mp (by omega)
  cases hclass : Half.fpClass h with
  | zero | subnormal | normal => rfl
  | infinity => exact absurd hclass hinf
  | nan => exact absurd hclass hnan

/-- Settles O52: each property holds of either tie rule, here of the even one. -/
theorem documentPropertiesHoldUnderEvenTies : Obligations.DocumentPropertiesHoldUnderEvenTies := by
  refine ⟨Codec.encodeBy_decode .even, Codec.encodeBy_getLsbD_sign .even, fun f hnan => ?_,
    fun f hl hh => Half.mag_encodeBy_saturated .even hl hh,
    fun f h => Half.finite_of_mag_le (Half.mag_encodeBy_of_lt_65520 .even h), by decide⟩
  obtain ⟨-, hexp, hsig⟩ := classOf_eq_nan_iff.mp hnan
  obtain ⟨he, hpayload⟩ := Codec.encodeBy_nan_fields .even hexp hsig
  obtain ⟨hpos, -⟩ := Single.halfPayload_bounds f
  exact (Half.fpClass_eq_nan_iff _).mpr ⟨he, by omega⟩

/-! ### Sign symmetry -/

/-- The one-bit sign field after its bit is flipped. -/
theorem toNat_xor_one (b : U1) : (b ^^^ 1#1).toNat = 1 - b.toNat := by
  revert b
  decide

theorem Single.mag_flip (f : U32) : Single.mag (f ^^^ 0x80000000#32) = Single.mag f := by
  have hlow : (0x80000000#32).extractLsb' 0 31 = 0#31 := by decide
  rw [Single.mag, BitVec.extractLsb'_xor, hlow, BitVec.xor_zero, ← Single.mag]

theorem Single.sign_flip (f : U32) : Single.sign (f ^^^ 0x80000000#32) = 1 - Single.sign f := by
  have hhigh : (0x80000000#32).extractLsb' 31 1 = 1#1 := by decide
  rw [Single.sign, BitVec.extractLsb'_xor, hhigh, toNat_xor_one, ← Single.sign]

theorem Half.mag_flip (h : U16) : Half.mag (h ^^^ 0x8000#16) = Half.mag h := by
  have hlow : (0x8000#16).extractLsb' 0 15 = 0#15 := by decide
  rw [Half.mag, BitVec.extractLsb'_xor, hlow, BitVec.xor_zero, ← Half.mag]

theorem Half.sign_flip (h : U16) : Half.sign (h ^^^ 0x8000#16) = 1 - Half.sign h := by
  have hhigh : (0x8000#16).extractLsb' 15 1 = 1#1 := by decide
  rw [Half.sign, BitVec.extractLsb'_xor, hhigh, toNat_xor_one, ← Half.sign]

/-- The magnitude of a result depends on that of the operand alone. -/
theorem Half.mag_encodeBy_congr (t : Config.TieRule) {f g : U32} (h : Single.mag f = Single.mag g) :
    Half.mag (Codec.encodeBy t f) = Half.mag (Codec.encodeBy t g) := by
  by_cases hnan : Single.mag f ≤ 0x7f800000
  · exact le_antisymm (Half.mag_encodeBy_mono t (h ▸ hnan) h.le) (Half.mag_encodeBy_mono t hnan h.ge)
  · have hsig : Single.sig f = Single.sig g := by
      rw [Single.mag_eq, Single.mag_eq] at h
      rw [Single.sig_eq, Single.sig_eq]
      omega
    rw [Half.mag_encodeBy_nan t (by omega), Half.mag_encodeBy_nan t (by omega), Single.halfPayload, Single.halfPayload, hsig]

theorem Single.mag_decode_congr {h h' : U16} (hmag : Half.mag h = Half.mag h') :
    Single.mag (Codec.decode h) = Single.mag (Codec.decode h') := by
  have hfields : Half.exp h = Half.exp h' ∧ Half.sig h = Half.sig h' := by
    rw [Half.mag_eq, Half.mag_eq] at hmag
    rw [Half.exp_eq, Half.exp_eq, Half.sig_eq, Half.sig_eq]
    omega
  obtain ⟨hexp, hsig⟩ := hfields
  by_cases he : Half.exp h = 31
  · obtain ⟨he₁, hs₁⟩ := Codec.decode_infinity_nan_fields he
    obtain ⟨he₂, hs₂⟩ := Codec.decode_infinity_nan_fields (hexp ▸ he)
    rw [Single.mag_fields, Single.mag_fields, he₁, hs₁, he₂, hs₂, hsig]
  · refine (patternMagnitude_strictMono 23).injective ?_
    change Single.units _ = Single.units _
    rw [Single.units_decode he, Single.units_decode (hexp ▸ he), hmag]

/-- Settles O28: flipping the sign bit flips the sign field and keeps the magnitude pattern, before and after. -/
theorem conversionsAreSignSymmetric : Obligations.ConversionsAreSignSymmetric := by
  refine ⟨fun t f => Half.eq_of_sign_mag ?_ ?_, fun h => Single.eq_of_sign_mag ?_ ?_⟩
  · rw [Half.sign_encodeBy, Single.sign_flip, Half.sign_flip, Half.sign_encodeBy]
  · rw [Half.mag_flip, Half.mag_encodeBy_congr t (Single.mag_flip f)]
  · rw [Single.sign_decode, Half.sign_flip, Single.sign_flip, Single.sign_decode]
  · rw [Single.mag_flip, Single.mag_decode_congr (Half.mag_flip h)]

/-! ### Subnormals by the loop -/

theorem and_bit_ten_eq_zero_iff {m : U16} (hm : m.toNat < 2 ^ 11) : m &&& 0x0400#16 = 0#16 ↔ m.toNat < 2 ^ 10 := by
  have hbit : (m &&& 0x0400#16).toNat = (m.toNat.testBit 10).toNat * 2 ^ 10 := by
    rw [BitVec.toNat_and]
    exact Nat.and_two_pow m.toNat 10
  rw [← BitVec.toNat_inj, hbit, Nat.testBit_eq_decide_div_mod_eq]
  by_cases hset : m.toNat / 2 ^ 10 % 2 = 1
  · simp only [hset, decide_true, Bool.toNat_true, BitVec.toNat_ofNat]
    omega
  · simp only [hset, decide_false, Bool.toNat_false, BitVec.toNat_ofNat]
    omega

/-- The loop moves a leading one that stands `d` places below bit 10 up to it, and adds `d` to the count. -/
theorem Codec.normalizeLoop_eq {fuel d : Nat} (hd : d ≤ fuel) (hd' : d ≤ 10) {m : U16} (hlow : 2 ^ (10 - d) ≤ m.toNat)
    (hhigh : m.toNat < 2 ^ (11 - d)) (count : Nat) : Codec.normalizeLoop fuel m count = (m <<< d, count + d) := by
  induction fuel generalizing d m count with
  | zero =>
    obtain rfl := Nat.le_zero.mp hd
    rw [Codec.normalizeLoop, BitVec.shiftLeft_zero, Nat.add_zero]
  | succ fuel ih =>
    have hm : m.toNat < 2 ^ 11 := hhigh.trans_le (Nat.pow_le_pow_right (by decide) (Nat.sub_le 11 d))
    simp only [Codec.normalizeLoop, and_bit_ten_eq_zero_iff hm]
    cases d with
    | zero => rw [if_neg (Nat.not_lt.mpr hlow), BitVec.shiftLeft_zero, Nat.add_zero]
    | succ d =>
      have hbelow : m.toNat < 2 ^ 10 := hhigh.trans_le (Nat.pow_le_pow_right (by decide) (by omega))
      have hshift : (m <<< 1).toNat = m.toNat * 2 := by
        rw [BitVec.toNat_shiftLeft, Nat.shiftLeft_eq]
        omega
      have hpow : 2 ^ (10 - d) = 2 ^ (10 - (d + 1)) * 2 := by rw [← Nat.pow_succ]; congr 1; omega
      have hpow' : 2 ^ (11 - d) = 2 ^ (11 - (d + 1)) * 2 := by rw [← Nat.pow_succ]; congr 1; omega
      rw [if_pos hbelow, ih (Nat.le_of_succ_le_succ hd) (by omega) (by omega) (by omega), ← BitVec.shiftLeft_add,
        Nat.add_comm 1 d, Nat.add_assoc, Nat.add_comm 1 d]

/-- R143, decision D9: the shift made before the loop is not counted, so the two forms agree. -/
theorem Codec.subnormalMagnitudeByLoop_eq {sig : U16} {p : Nat} (hp : p ≤ 9) (hlow : 2 ^ p ≤ sig.toNat)
    (hhigh : sig.toNat < 2 ^ (p + 1)) : Codec.subnormalMagnitudeByLoop sig = Codec.subnormalMagnitude sig := by
  have hsmall : sig.toNat < 2 ^ 10 := hhigh.trans_le (Nat.pow_le_pow_right (by decide) (by omega))
  have hshift : (sig <<< 1).toNat = sig.toNat * 2 := by
    rw [BitVec.toNat_shiftLeft, Nat.shiftLeft_eq]
    omega
  have hpow : 2 ^ (10 - (9 - p)) = 2 ^ p * 2 := by rw [← Nat.pow_succ]; congr 1; omega
  have hpow' : 2 ^ (11 - (9 - p)) = 2 ^ (p + 1) * 2 := by rw [← Nat.pow_succ]; congr 1; omega
  have hloop := Codec.normalizeLoop_eq (fuel := 9) (d := 9 - p) (m := sig <<< 1) (by omega) (by omega) (by omega) (by omega) 0
  have hmoved : sig <<< 1 <<< (9 - p) = sig <<< (10 - p) := by
    rw [← BitVec.shiftLeft_add]
    congr 1
    omega
  have hexp : 127 - 15 - (0 + (9 - p)) = 103 + p := by omega
  simp only [Codec.subnormalMagnitudeByLoop, Codec.subnormalMagnitude, hloop, Codec.msb_unique hlow hhigh, hmoved, hexp]

/-- Settles O31: the subnormal branch, and the loop form beside it. -/
theorem decodeSubnormalNormalizes : Obligations.DecodeSubnormalNormalizes := by
  intro h s p he hlow hhigh
  have hp : p < 10 := (Nat.pow_lt_pow_iff_right (by decide)).mp (Nat.lt_of_le_of_lt hlow (Half.sig_lt h))
  refine ⟨exec_decode_of_toNat (Codec.decode_subnormal he hlow hhigh) s, ?_⟩
  rw [← Codec.hSig_toNat] at hlow hhigh
  exact Codec.subnormalMagnitudeByLoop_eq (by omega) hlow hhigh

/-- Settles O36: the two meanings are one; the example is a normal. -/
theorem toFloatIsDecodeOfTheSamePattern : Obligations.ToFloatIsDecodeOfTheSamePattern :=
  fun h s => ⟨⟨_, exec_eq (.toFloat h) s, exec_eq (.decode h) s⟩, rfl,
    exec_decode_normal (h := 0xbc00#16) (by decide) (by decide) s⟩

end Sys2Proof.Machine
end
